-- ==== Sys2Proof/Word.lean ====
section
/-! DEFINITION. The word types of the gohome PoW block. -/

namespace Sys2Proof

/-- A byte (R11). -/
abbrev Byte := BitVec 8

/-- A 32-bit word: an interpreter register, a round-key word, a quarter of an AES block. -/
abbrev W32 := BitVec 32

/-- A 64-bit word: an operand or result register, a program slot. -/
abbrev W64 := BitVec 64

end Sys2Proof
end

