-- ==== Sys2Proof/Syntax.lean ====
section
/-! DEFINITION. The commands and instructions of the block, one constructor per row of the opcode table, the two
code formats that carry them, the names of the fault causes and the host's names for registers. -/

namespace Sys2Proof

/-- The fault causes of R260, by name; `Machine/Flags.lean` gives their codes. -/
inductive Cause where
  | none
  | illegalOpcode
  | illegalDst
  | illegalSrc
  | reservedNonzero
  | illegalCommand
  | uninitRead
  deriving DecidableEq, Repr

/-- A command of the `CMD8` format (R91) or an interpreter instruction of the `RM64` format (R96). `dst` and `src`
are the index bytes of R97 and R98; `c` is ADD's constant (R99), the only one that any instruction reads. -/
inductive Instr where
  | aesExpandKey
  | aesEncryptBlock
  | aesSingleRound
  | aesSingleRoundHeavy
  | rmExec
  | hfFinalize
  | mul (dst src : Byte)
  | add (dst src : Byte) (c : W32)
  | sub (dst src : Byte)
  | ror (dst src : Byte)
  | rol (dst src : Byte)
  | xor (dst src : Byte)
  | ret
  deriving DecidableEq, Repr

/-- The two formats in which a command or instruction is written (30_encoding.md section 1). -/
inductive Code where
  | cmd8 (c : Byte)
  | rm64 (w : W64)
  deriving DecidableEq, Repr

namespace Machine

/-- The index spaces of R60, the host's names for registers. `inp` is the register `IN`. -/
inductive Space where
  | key | rk | inp | rkey | out | kout | r | pmem | st | sel | digest | cmd | status
  deriving DecidableEq, Repr

/-- A register named by its space and index. -/
structure RegRef where
  space : Space
  index : Nat
  deriving DecidableEq, Repr

end Machine

end Sys2Proof
end

