-- ==== Sys2Proof/Config.lean ====
section
/-! DEFINITION. What the spec leaves to the implementation (R7) or leaves open (I23): constants with no body, so
that no proof can rest on a value of one. -/

namespace Sys2Proof.Config

/-- `N_CTX - 1` (R7, R272): the block has `N_CTX = extraContexts + 1` contexts, so `N_CTX ≥ 1` holds by form. -/
opaque extraContexts : Nat

/-- The external hash primitive `HASH_0` (R7): a total function of 200 bytes, 32 bytes long. -/
opaque hash0 : Vector Byte 200 → Vector Byte 32

/-- The external hash primitive `HASH_1` (R7). -/
opaque hash1 : Vector Byte 200 → Vector Byte 32

/-- The external hash primitive `HASH_2` (R7). -/
opaque hash2 : Vector Byte 200 → Vector Byte 32

/-- The external hash primitive `HASH_3` (R7). -/
opaque hash3 : Vector Byte 200 → Vector Byte 32

/-- Which idle unit of a pool the n-th lease takes (I23: any): a free value of log entry 6, applied to the counter
`State.leases`. -/
opaque leasePick : Nat → Nat

/-- `BUS_MAP` (R7, R71): which register of which context a bus address reaches, or none. Any map: no rule depends on
it (log entry 10). -/
opaque busMap : Nat → Option (Nat × Machine.RegRef)

end Sys2Proof.Config
end

