-- ==== Sys2Proof/Machine/State.lean ====
section
/-! DEFINITION. The state of the block as plain data, the reasons a step can stop, and the state after reset. -/

namespace Sys2Proof.Machine

/-- A bank of `n` data registers of `w` bits with one *written* bit per index (R43). -/
structure RegBank (w n : Nat) where
  val : Vector (BitVec w) n
  written : Vector Bool n
  deriving DecidableEq, Repr

/-- `STATUS.STATE` (R36). -/
inductive RunState where
  | idle | busy | done | fault
  deriving DecidableEq, Repr

/-- The fields of `STATUS` (R36); `Machine/Flags.lean` gives the 32-bit word the host reads. -/
structure Status where
  state : RunState
  cap : Bool
  cause : Cause
  fpc : BitVec 7
  deriving DecidableEq, Repr

/-- One entry of the model's own fault record (R263): the first register read while unwritten, and the slot R260
records for it (the slot of an RM step, else 0). -/
structure UninitRead where
  reg : RegRef
  slot : BitVec 7
  deriving DecidableEq, Repr

/-- The per-context state of R20 to R43. -/
structure Context where
  key : RegBank 64 4
  rk : RegBank 32 40
  inp : RegBank 64 2
  rkey : RegBank 64 2
  out : RegBank 64 2
  kout : RegBank 64 2
  r : RegBank 32 9
  pmem : RegBank 64 71
  pc : BitVec 7
  st : RegBank 64 25
  sel : BitVec 2
  digest : RegBank 64 4
  cmd : Byte
  status : Status
  uninit : Option UninitRead
  deriving DecidableEq, Repr

/-- One unit of a hash primitive in a pool (R42): leased or idle, and the bytes fed to it since its last reset. -/
structure HashUnit where
  leased : Bool
  fed : List Byte
  deriving DecidableEq, Repr

/-- `POOL[k]` (R42): its units, each named by its place. -/
abbrev Pool := List HashUnit

/-- One host register access (R61): `bits` is the width the host moves, `v` holds the value in its low bits. -/
inductive HostAccess where
  | read (space : Space) (index : Nat) (bits : Nat)
  | write (space : Space) (index : Nat) (bits : Nat) (v : W64)
  deriving DecidableEq, Repr

/-- What moves next: the host, by one access to one context (R74), one context's RMU (R181), or reset (R300). -/
inductive Input where
  | host (ctx : Nat) (a : HostAccess)
  | turn (ctx : Nat)
  | reset
  deriving DecidableEq, Repr

/-- What the host's last read returned. -/
structure HostData where
  ctx : Nat
  reg : RegRef
  value : W64
  deriving DecidableEq, Repr

/-- The whole block. Context `lower.length` is the one in `ctx`, the one that moves; `lower` holds the contexts below
it, nearest first, and `upper` those above it (R20, R272). -/
structure State where
  lower : List Context
  ctx : Context
  upper : List Context
  pool : Vector Pool 4
  inputs : List Input
  hostData : Option HostData
  leases : Nat
  deriving DecidableEq, Repr

/-- Why the machine stops with a fault. The faults of R260 are no such stops: they set `STATUS` and the block goes
on (R262). -/
inductive Fault where
  /-- Raised by an RM step whose `PC` is above 69: R182 says no such fetch exists, and the stop is DESIGN CHOICE (log
  entry 12). Safe: no run from reset reaches it. -/
  | fetchRange
  /-- R263's model-only `UNINIT_READ`, raised by `Safety.checkedStep` alone, never by `step`. Safe. -/
  | uninitRead
  deriving DecidableEq, Repr

/-- Why an input is refused. -/
inductive Refusal where
  /-- An instruction with no meaning yet, raised by `exec` alone. Safe. -/
  | notModelled (mnemonic : String)
  /-- A host access to an index that does not exist (R73), raised by a host access. Safe. -/
  | noSuchRegister
  /-- A host access that does not move one whole register (R61, I16), raised by a host access. Safe. -/
  | partialWidth
  /-- An input for a context number of `N_CTX` or above (R272), raised by a host access or a turn. Safe. -/
  | noSuchContext
  deriving DecidableEq, Repr

/-- A bank after reset: every written bit clear (R43) and, as the model's choice (log entry 1), every value zero. -/
def RegBank.reset (w n : Nat) : RegBank w n :=
  { val := Vector.replicate n 0#w, written := Vector.replicate n false }

/-- `STATUS` after reset (R36). -/
def Status.reset : Status := { state := .idle, cap := false, cause := .none, fpc := 0#7 }

/-- A context after reset (R301). -/
def Context.reset : Context where
  key := .reset 64 4
  rk := .reset 32 40
  inp := .reset 64 2
  rkey := .reset 64 2
  out := .reset 64 2
  kout := .reset 64 2
  r := .reset 32 9
  pmem := .reset 64 71
  pc := 0#7
  st := .reset 64 25
  sel := 0#2
  digest := .reset 64 4
  cmd := 0#8
  status := .reset
  uninit := none

/-- The pools after reset: every pool empty (R42). -/
def emptyPools : Vector Pool 4 := Vector.replicate 4 []

/-- The block after reset (R300, R301): `N_CTX` contexts in the reset state, empty pools, no input waiting. That context
0 has the turn is the model's choice (log entry 4). -/
def State.reset : State where
  lower := []
  ctx := .reset
  upper := List.replicate Config.extraContexts .reset
  pool := emptyPools
  inputs := []
  hostData := none
  leases := 0

end Sys2Proof.Machine
end

