-- ==== Sys2Proof/Machine/Flags.lean ====
section
/-! DEFINITION. The block has no flags (R41); this file holds the codes and the 32-bit view of `STATUS`. -/

namespace Sys2Proof.Machine

/-- The codes of R260. -/
def causeCode : Cause → Byte
  | .none => 0x00#8
  | .illegalOpcode => 0x01#8
  | .illegalDst => 0x02#8
  | .illegalSrc => 0x03#8
  | .reservedNonzero => 0x04#8
  | .illegalCommand => 0x05#8
  | .uninitRead => 0x06#8

/-- The codes of `STATUS.STATE` (R36). -/
def runStateCode : RunState → BitVec 2
  | .idle => 0#2
  | .busy => 1#2
  | .done => 2#2
  | .fault => 3#2

/-- `STATUS` as the host reads it (R36): reserved bits 31:23 and 7:3 read 0. -/
def statusWord (s : Status) : W32 :=
  0#9 ++ s.fpc ++ causeCode s.cause ++ 0#5 ++ BitVec.ofBool s.cap ++ runStateCode s.state

/-- `STATUS` when an accepted command starts (R37). -/
def Status.started : Status := { state := .busy, cap := false, cause := .none, fpc := 0#7 }

/-- `STATUS` after `raise Fault(c)` (R262). -/
def Status.faulted (c : Cause) (fpc : BitVec 7) : Status :=
  { state := .fault, cap := false, cause := c, fpc := fpc }

end Sys2Proof.Machine
end

