-- ==== Sys2Proof/Machine/Operands.lean ====
section
/-! DEFINITION. The byte and quarter views of words (R11, R62 to R68): every form in which an operand is seen at a
width other than its own. -/

namespace Sys2Proof.Machine

/-- `byte_i(v) = v[8i+7:8i]` (R11). -/
def byteOf {n : Nat} (v : BitVec n) (i : Nat) : Byte := v.extractLsb' (8 * i) 8

/-- `bswap32` (R9). -/
def bswap32 (v : W32) : W32 := byteOf v 0 ++ byteOf v 1 ++ byteOf v 2 ++ byteOf v 3

/-- `LE8(w)` (R11): least significant byte first. -/
def le8 (w : W64) : Vector Byte 8 := Vector.ofFn fun i => byteOf w i

/-- The word whose `LE8` is given by `f 0` to `f 7`. -/
def wordLe (f : Nat → Byte) : W64 := f 7 ++ f 6 ++ f 5 ++ f 4 ++ f 3 ++ f 2 ++ f 1 ++ f 0

/-- A 16-byte buffer (R11). -/
abbrev Block := Vector Byte 16

/-- Byte `i` of a block. -/
def Block.at (s : Block) (i : Nat) : Byte := s[i]?.getD 0#8

/-- `B16(b0, b1)` (R11, R63). -/
def b16 (b0 b1 : W64) : Block := Vector.ofFn fun i => if i.val < 8 then byteOf b0 i else byteOf b1 (i - 8)

/-- `W2(s)` (R11, R63), the inverse of `B16`. -/
def w2 (s : Block) : W64 × W64 := (wordLe fun i => s.at i, wordLe fun i => s.at (8 + i))

/-- Four 32-bit quarters. -/
structure Quarters where
  q0 : W32
  q1 : W32
  q2 : W32
  q3 : W32
  deriving DecidableEq, Repr

/-- Quarter `q mod 4`. -/
def Quarters.get (x : Quarters) (q : Nat) : W32 :=
  match q % 4 with
  | 0 => x.q0
  | 1 => x.q1
  | 2 => x.q2
  | _ => x.q3

/-- Quarter `q mod 4` replaced. -/
def Quarters.set (x : Quarters) (q : Nat) (v : W32) : Quarters :=
  match q % 4 with
  | 0 => { x with q0 := v }
  | 1 => { x with q1 := v }
  | 2 => { x with q2 := v }
  | _ => { x with q3 := v }

/-- `Q4(b0, b1)` (R11). -/
def q4 (b0 b1 : W64) : Quarters :=
  { q0 := b0.extractLsb' 0 32, q1 := b0.extractLsb' 32 32, q2 := b1.extractLsb' 0 32, q3 := b1.extractLsb' 32 32 }

/-- The two words of four quarters: `q1 || q0` and `q3 || q2` (R139, R140). -/
def Quarters.words (x : Quarters) : W64 × W64 := (x.q1 ++ x.q0, x.q3 ++ x.q2)

/-- The 16 bytes of four round-key words, most significant byte of each word first (R64). -/
def roundKeyBytes (f : Nat → W32) : Block := Vector.ofFn fun i => byteOf (f (i / 4)) (3 - i % 4)

/-- The finalizer's 200 bytes (R65): byte `8k + i` is byte `i` of word `k`. -/
def stateBytes (st : Nat → W64) : Vector Byte 200 := Vector.ofFn fun i => byteOf (st (i / 8)) (i % 8)

/-- Word `k` of the digest registers (R66). -/
def digestWord (d : Vector Byte 32) (k : Nat) : W64 := wordLe fun i => d[8 * k + i]?.getD 0#8

end Sys2Proof.Machine
end

