-- ==== Sys2Proof/Machine/Ops.lean ====
section
/-! DEFINITION. The named operations over the register banks, the contexts and `STATUS`: reading and writing with the
written bits of R43, starting and finishing a command (R37), raising a fault (R262), choosing a context (R272) and
resetting the block (R300). -/

namespace Sys2Proof.Machine

/-- Register `i` of a bank. Indexes above the bank are refused before a bank is asked (R73). -/
def RegBank.get {w n : Nat} (b : RegBank w n) (i : Nat) : BitVec w := b.val[i]?.getD 0#w

/-- The written bit of register `i` (R43). -/
def RegBank.isWritten {w n : Nat} (b : RegBank w n) (i : Nat) : Bool := b.written[i]?.getD false

/-- Writing register `i` sets its value and its written bit (R43). -/
def RegBank.set {w n : Nat} (b : RegBank w n) (i : Nat) (v : BitVec w) : RegBank w n :=
  { val := b.val.setIfInBounds i v, written := b.written.setIfInBounds i true }

/-- A bank of which every register has just been written, register `i` with `f i`. -/
def RegBank.filled {w : Nat} (n : Nat) (f : Nat → BitVec w) : RegBank w n :=
  { val := Vector.ofFn fun i => f i, written := Vector.replicate n true }

/-- A two-register bank of which both have just been written. -/
def RegBank.pair {w : Nat} (p : BitVec w × BitVec w) : RegBank w 2 := .filled 2 fun i => if i = 0 then p.1 else p.2

/-- The written bit of a named register; `SEL`, `CMD` and `STATUS` have reset values and so need none (R43). -/
def Context.isWritten (c : Context) (x : RegRef) : Bool :=
  match x.space with
  | .key => c.key.isWritten x.index
  | .rk => c.rk.isWritten x.index
  | .inp => c.inp.isWritten x.index
  | .rkey => c.rkey.isWritten x.index
  | .out => c.out.isWritten x.index
  | .kout => c.kout.isWritten x.index
  | .r => c.r.isWritten x.index
  | .pmem => c.pmem.isWritten x.index
  | .st => c.st.isWritten x.index
  | .digest => c.digest.isWritten x.index
  | .sel => true
  | .cmd => true
  | .status => true

/-- Registers 0 to `n - 1` of a space, in order. -/
def regs (sp : Space) (n : Nat) : List RegRef := (List.range n).map fun i => { space := sp, index := i }

/-- The model's fault record after the registers `xs` are read in order (R263, R264): the first unwritten one is
recorded unless the record already holds an earlier one; a record is never cleared. The read itself goes on, as it
does on the hardware (log entry 1). -/
def Context.noteReads (slot : BitVec 7) (xs : List RegRef) (c : Context) : Context :=
  match c.uninit with
  | some _ => c
  | none => { c with uninit := (xs.find? fun x => !c.isWritten x).map fun x => { reg := x, slot := slot } }

/-- The block with the moving context changed. -/
def State.mapCtx (f : Context → Context) (s : State) : State := { s with ctx := f s.ctx }

/-- A context whose RMU runs (R37: only `RM_EXEC` stays `BUSY` after its step). -/
def Context.busy (c : Context) : Bool := decide (c.status.state = .busy)

/-- TAKING A FAULT (R262): `STATE`, `CAUSE`, `CAP` and `FPC` are written; nothing else is. -/
def raiseFault (c : Cause) (fpc : BitVec 7) (s : State) : State :=
  s.mapCtx fun x => { x with status := .faulted c fpc }

/-- A fault of an RM step records the slot (R262). -/
def raiseRm (c : Cause) (s : State) : State := raiseFault c s.ctx.pc s

/-- A fault of a `CMD` write records slot 0 (R92, R262). -/
def raiseCmd (c : Cause) (s : State) : State := raiseFault c 0#7 s

/-- THE RETURN FROM A FAULT (R267): there is none but a new command, whose start clears `CAUSE`, `CAP` and `FPC`
and sets `BUSY` (R37). -/
def Context.start (c : Context) : Context := { c with status := .started }

/-- The normal end of a command (R37). -/
def Context.finish (c : Context) : Context := { c with status := { c.status with state := .done } }

/-- The whole of a one-step command (R74): it starts, reads its operands, writes its results and is `DONE`. -/
def runCommand (operands : List RegRef) (effect : Context → Context) (s : State) :
    Host.Outcome State Fault Refusal :=
  .next (s.mapCtx fun c => (effect (c.start.noteReads 0#7 operands)).finish)

/-- All contexts in the order of their numbers (R272). -/
def State.contexts (s : State) : List Context := s.lower.reverse ++ s.ctx :: s.upper

/-- The number of the moving context. -/
def State.ctxId (s : State) : Nat := s.lower.length

/-- The block with context `k` as the one that moves; none where there is no such context (R272). -/
def State.focus (s : State) (k : Nat) : Option State :=
  if k = s.ctxId then some s
  else
    match s.contexts.drop k with
    | c :: u => some { s with lower := (s.contexts.take k).reverse, ctx := c, upper := u }
    | [] => none

/-- The turn passes to the next context by number, after the last to the first: the fair schedule (R309) taken where
no input names one. -/
def State.passTurn (s : State) : State :=
  match s.upper with
  | c :: u => { s with lower := s.ctx :: s.lower, ctx := c, upper := u }
  | [] =>
    match s.contexts with
    | c :: u => { s with lower := [], ctx := c, upper := u }
    | [] => s

/-- A context put into its reset state (R301); the model's own fault record stays, as R263 asks. -/
def Context.afterReset (c : Context) : Context := { Context.reset with uninit := c.uninit }

/-- Reset of the whole block in one step (R300). The context that moved before keeps the turn: the spec leaves the order
of contexts open (I24), and this is the model's choice (log entry 4). -/
def resetBlock (s : State) : State :=
  { s with
    lower := s.lower.map .afterReset, ctx := s.ctx.afterReset, upper := s.upper.map .afterReset, pool := emptyPools }

end Sys2Proof.Machine
end

