-- ==== Sys2Proof/Machine/Aesu.lean ====
section
/-! DEFINITION. The AES round engine: its constant tables (R27, R130 to R132), round (R133, R134), key schedule
(R136) and four commands (R137 to R140). -/

namespace Sys2Proof.Machine

/-- Rows 0 to 7 of R130's table. -/
def sboxRowsLow : List (List Byte) :=
  [[0x63#8, 0x7c#8, 0x77#8, 0x7b#8, 0xf2#8, 0x6b#8, 0x6f#8, 0xc5#8, 0x30#8, 0x01#8, 0x67#8, 0x2b#8, 0xfe#8, 0xd7#8, 0xab#8, 0x76#8],
   [0xca#8, 0x82#8, 0xc9#8, 0x7d#8, 0xfa#8, 0x59#8, 0x47#8, 0xf0#8, 0xad#8, 0xd4#8, 0xa2#8, 0xaf#8, 0x9c#8, 0xa4#8, 0x72#8, 0xc0#8],
   [0xb7#8, 0xfd#8, 0x93#8, 0x26#8, 0x36#8, 0x3f#8, 0xf7#8, 0xcc#8, 0x34#8, 0xa5#8, 0xe5#8, 0xf1#8, 0x71#8, 0xd8#8, 0x31#8, 0x15#8],
   [0x04#8, 0xc7#8, 0x23#8, 0xc3#8, 0x18#8, 0x96#8, 0x05#8, 0x9a#8, 0x07#8, 0x12#8, 0x80#8, 0xe2#8, 0xeb#8, 0x27#8, 0xb2#8, 0x75#8],
   [0x09#8, 0x83#8, 0x2c#8, 0x1a#8, 0x1b#8, 0x6e#8, 0x5a#8, 0xa0#8, 0x52#8, 0x3b#8, 0xd6#8, 0xb3#8, 0x29#8, 0xe3#8, 0x2f#8, 0x84#8],
   [0x53#8, 0xd1#8, 0x00#8, 0xed#8, 0x20#8, 0xfc#8, 0xb1#8, 0x5b#8, 0x6a#8, 0xcb#8, 0xbe#8, 0x39#8, 0x4a#8, 0x4c#8, 0x58#8, 0xcf#8],
   [0xd0#8, 0xef#8, 0xaa#8, 0xfb#8, 0x43#8, 0x4d#8, 0x33#8, 0x85#8, 0x45#8, 0xf9#8, 0x02#8, 0x7f#8, 0x50#8, 0x3c#8, 0x9f#8, 0xa8#8],
   [0x51#8, 0xa3#8, 0x40#8, 0x8f#8, 0x92#8, 0x9d#8, 0x38#8, 0xf5#8, 0xbc#8, 0xb6#8, 0xda#8, 0x21#8, 0x10#8, 0xff#8, 0xf3#8, 0xd2#8]]

/-- Rows 8 to F of R130's table. -/
def sboxRowsHigh : List (List Byte) :=
  [[0xcd#8, 0x0c#8, 0x13#8, 0xec#8, 0x5f#8, 0x97#8, 0x44#8, 0x17#8, 0xc4#8, 0xa7#8, 0x7e#8, 0x3d#8, 0x64#8, 0x5d#8, 0x19#8, 0x73#8],
   [0x60#8, 0x81#8, 0x4f#8, 0xdc#8, 0x22#8, 0x2a#8, 0x90#8, 0x88#8, 0x46#8, 0xee#8, 0xb8#8, 0x14#8, 0xde#8, 0x5e#8, 0x0b#8, 0xdb#8],
   [0xe0#8, 0x32#8, 0x3a#8, 0x0a#8, 0x49#8, 0x06#8, 0x24#8, 0x5c#8, 0xc2#8, 0xd3#8, 0xac#8, 0x62#8, 0x91#8, 0x95#8, 0xe4#8, 0x79#8],
   [0xe7#8, 0xc8#8, 0x37#8, 0x6d#8, 0x8d#8, 0xd5#8, 0x4e#8, 0xa9#8, 0x6c#8, 0x56#8, 0xf4#8, 0xea#8, 0x65#8, 0x7a#8, 0xae#8, 0x08#8],
   [0xba#8, 0x78#8, 0x25#8, 0x2e#8, 0x1c#8, 0xa6#8, 0xb4#8, 0xc6#8, 0xe8#8, 0xdd#8, 0x74#8, 0x1f#8, 0x4b#8, 0xbd#8, 0x8b#8, 0x8a#8],
   [0x70#8, 0x3e#8, 0xb5#8, 0x66#8, 0x48#8, 0x03#8, 0xf6#8, 0x0e#8, 0x61#8, 0x35#8, 0x57#8, 0xb9#8, 0x86#8, 0xc1#8, 0x1d#8, 0x9e#8],
   [0xe1#8, 0xf8#8, 0x98#8, 0x11#8, 0x69#8, 0xd9#8, 0x8e#8, 0x94#8, 0x9b#8, 0x1e#8, 0x87#8, 0xe9#8, 0xce#8, 0x55#8, 0x28#8, 0xdf#8],
   [0x8c#8, 0xa1#8, 0x89#8, 0x0d#8, 0xbf#8, 0xe6#8, 0x42#8, 0x68#8, 0x41#8, 0x99#8, 0x2d#8, 0x0f#8, 0xb0#8, 0x54#8, 0xbb#8, 0x16#8]]

/-- `SBOX[a]` (R130): row = high nibble, column = low nibble. -/
def sbox (a : Byte) : Byte := ((sboxRowsLow ++ sboxRowsHigh).getD (a.toNat / 16) []).getD (a.toNat % 16) 0#8

/-- `gmul2` (R131). -/
def gmul2 (a : Byte) : Byte := (a <<< 1) ^^^ (if a.getLsbD 7 then 0x1B#8 else 0x00#8)

/-- `gmul3` (R131). -/
def gmul3 (a : Byte) : Byte := gmul2 a ^^^ a

/-- `TE0[a]` (R132). -/
def te0 (a : Byte) : W32 := gmul3 (sbox a) ++ sbox a ++ sbox a ++ gmul2 (sbox a)

/-- `TE1[a]` (R132). -/
def te1 (a : Byte) : W32 := (te0 a).rotateLeft 8

/-- `TE2[a]` (R132). -/
def te2 (a : Byte) : W32 := (te0 a).rotateLeft 16

/-- `TE3[a]` (R132). -/
def te3 (a : Byte) : W32 := (te0 a).rotateLeft 24

/-- The column step `COL(x, q)` (R133). -/
def col (x : Quarters) (q : Nat) : W32 :=
  te0 (byteOf (x.get q) 0) ^^^ te1 (byteOf (x.get (q + 1)) 1) ^^^ te2 (byteOf (x.get (q + 2)) 2) ^^^
    te3 (byteOf (x.get (q + 3)) 3)

/-- SubBytes (R134). -/
def subBytes (s : Block) : Block := Vector.ofFn fun i => sbox (s.at i)

/-- ShiftRows (R134): byte `4c + r` comes from byte `4((c + r) mod 4) + r`. -/
def shiftRows (t : Block) : Block := Vector.ofFn fun i => t.at (4 * ((i / 4 + i % 4) % 4) + i % 4)

/-- Row `r` of one MixColumns column (R134). -/
def mixRow (a0 a1 a2 a3 : Byte) (r : Nat) : Byte :=
  match r with
  | 0 => gmul2 a0 ^^^ gmul3 a1 ^^^ a2 ^^^ a3
  | 1 => a0 ^^^ gmul2 a1 ^^^ gmul3 a2 ^^^ a3
  | 2 => a0 ^^^ a1 ^^^ gmul2 a2 ^^^ gmul3 a3
  | _ => gmul3 a0 ^^^ a1 ^^^ a2 ^^^ gmul2 a3

/-- MixColumns (R134). -/
def mixColumns (u : Block) : Block :=
  Vector.ofFn fun i =>
    mixRow (u.at (4 * (i / 4))) (u.at (4 * (i / 4) + 1)) (u.at (4 * (i / 4) + 2)) (u.at (4 * (i / 4) + 3)) (i % 4)

/-- AddRoundKey (R134). -/
def addRoundKey (v k : Block) : Block := Vector.ofFn fun i => v.at i ^^^ k.at i

/-- `AESENC(s, k)` (R134), one full round. -/
def aesenc (s k : Block) : Block := addRoundKey (mixColumns (shiftRows (subBytes s))) k

/-- `RotWord` (R136). -/
def rotWord (t : W32) : W32 := t.rotateLeft 8

/-- `SubWord` (R136). -/
def subWord (t : W32) : W32 := sbox (byteOf t 3) ++ sbox (byteOf t 2) ++ sbox (byteOf t 1) ++ sbox (byteOf t 0)

/-- `RCON[i]` (R136). -/
def rcon (i : Nat) : Byte := [0x01#8, 0x02#8, 0x04#8, 0x08#8].getD i 0#8

/-- What R137's loop adds to `w[i-8]`: it depends on `i mod 8` and on the word before. -/
def scheduleTerm (i : Nat) (t : W32) : W32 :=
  if i % 8 = 0 then subWord (rotWord t) ^^^ (rcon (i / 8 - 1)).setWidth 32 <<< 24
  else if i % 8 = 4 then subWord t
  else t

/-- One turn of R137's loop: it appends `w[i]` for `i` the number of words so far. -/
def scheduleNext (w : List W32) : List W32 :=
  w ++ [w.getD (w.length - 8) 0#32 ^^^ scheduleTerm w.length (w.getD (w.length - 1) 0#32)]

/-- `n` turns of R137's loop. -/
def scheduleGrow : Nat → List W32 → List W32
  | 0, w => w
  | n + 1, w => scheduleGrow n (scheduleNext w)

/-- Words 0 to 7 (R137): each key word split in two, byte order reversed. -/
def keyHalves (key : Nat → W64) : List W32 :=
  (List.range 8).map fun i => bswap32 ((key (i / 2)).extractLsb' (32 * (i % 2)) 32)

/-- The schedule `w[0..39]` of R137. -/
def expandKey (key : Nat → W64) : List W32 := scheduleGrow 32 (keyHalves key)

/-- Rounds `r` to `r + n - 1` of R138. -/
def encryptRounds (rk : Nat → W32) : Nat → Nat → Block → Block
  | 0, _, s => s
  | n + 1, r, s => encryptRounds rk n (r + 1) (aesenc s (roundKeyBytes fun j => rk (4 * r + j)))

/-- The result of R138: ten rounds from round 0. -/
def encryptBlock (rk : Nat → W32) (b0 b1 : W64) : W64 × W64 := w2 (encryptRounds rk 10 0 (b16 b0 b1))

/-- The result of R139. -/
def singleRound (b0 b1 k0 k1 : W64) : W64 × W64 := w2 (aesenc (b16 b0 b1) (b16 k0 k1))

/-- The block and key quarters that R140's loop carries. -/
structure Heavy where
  x : Quarters
  k : Quarters
  deriving DecidableEq, Repr

/-- One turn of R140's loop: the key quarter takes the column, then the block quarter takes the key quarter. -/
def heavyStep (q : Nat) (h : Heavy) : Heavy :=
  let kq := h.k.get q ^^^ col h.x q
  { x := h.x.set q (h.x.get q ^^^ kq), k := h.k.set q kq }

/-- The block's quarters complemented, the key's as they stand (R140). -/
def heavyInit (b0 b1 k0 k1 : W64) : Heavy :=
  let x := q4 b0 b1
  { x := { q0 := ~~~x.q0, q1 := ~~~x.q1, q2 := ~~~x.q2, q3 := ~~~x.q3 }, k := q4 k0 k1 }

/-- The updated key words `K'` of R140. -/
def singleRoundHeavy (b0 b1 k0 k1 : W64) : W64 × W64 :=
  (heavyStep 3 (heavyStep 2 (heavyStep 1 (heavyStep 0 (heavyInit b0 b1 k0 k1))))).k.words

/-- `AES_EXPAND_KEY` (R137). -/
def execAesExpandKey (s : State) : Host.Outcome State Fault Refusal :=
  runCommand (regs .key 4)
    (fun c =>
      let w := expandKey c.key.get
      { c with rk := .filled 40 fun i => w.getD i 0#32 }) s

/-- `AES_ENCRYPT_BLOCK` (R138). -/
def execAesEncryptBlock (s : State) : Host.Outcome State Fault Refusal :=
  runCommand (regs .inp 2 ++ regs .rk 40)
    (fun c => { c with out := .pair (encryptBlock c.rk.get (c.inp.get 0) (c.inp.get 1)) }) s

/-- `AES_SINGLE_ROUND` (R139). -/
def execAesSingleRound (s : State) : Host.Outcome State Fault Refusal :=
  runCommand (regs .inp 2 ++ regs .rkey 2)
    (fun c => { c with out := .pair (singleRound (c.inp.get 0) (c.inp.get 1) (c.rkey.get 0) (c.rkey.get 1)) }) s

/-- `AES_SINGLE_ROUND_HEAVY` (R140): `OUT` and `KOUT` both take `K'`. -/
def execAesSingleRoundHeavy (s : State) : Host.Outcome State Fault Refusal :=
  runCommand (regs .inp 2 ++ regs .rkey 2)
    (fun c =>
      let k := singleRoundHeavy (c.inp.get 0) (c.inp.get 1) (c.rkey.get 0) (c.rkey.get 1)
      { c with out := .pair k, kout := .pair k }) s

end Sys2Proof.Machine
end

