-- ==== Sys2Proof/Machine/Hfu.lean ====
section
/-! DEFINITION. The hash finalizer: the pools (R235 to R240) and `HF_FINALIZE` (R230). -/

namespace Sys2Proof.Machine

/-- `HASH_k` (R232). -/
def hashOf (k : BitVec 2) : Vector Byte 200 → Vector Byte 32 :=
  match k.toNat with
  | 0 => Config.hash0
  | 1 => Config.hash1
  | 2 => Config.hash2
  | _ => Config.hash3

/-- The places of a pool's idle units. -/
def Pool.idle (p : Pool) : List Nat := (List.range p.length).filter fun i => p[i]?.any fun u => !u.leased

/-- `Lease` (R236): an idle unit, any one of them (I23), is marked leased; if there is none, a new one is made. -/
def Pool.lease (pick : Nat) (p : Pool) : Nat × Pool :=
  match p.idle with
  | [] => (p.length, p ++ [{ leased := true, fed := [] }])
  | i :: is =>
    let j := (i :: is).getD (pick % (i :: is).length) i
    (j, p.modify j fun u => { u with leased := true })

/-- The reset of a leased unit before any byte is fed to it (R237). -/
def Pool.resetUnit (j : Nat) (p : Pool) : Pool := p.modify j fun u => { u with fed := [] }

/-- Feeding bytes to a unit (R271). -/
def Pool.feed (j : Nat) (m : List Byte) (p : Pool) : Pool := p.modify j fun u => { u with fed := u.fed ++ m }

/-- The digest of a unit: the primitive's function of the 200 bytes fed after reset (R233, R271). -/
def Pool.digest (k : BitVec 2) (j : Nat) (p : Pool) : Vector Byte 32 :=
  hashOf k (Vector.ofFn fun i => ((p[j]?.map HashUnit.fed).getD []).getD i 0#8)

/-- `Return` (R239): the unit is idle again; no unit is ever destroyed. -/
def Pool.giveBack (j : Nat) (p : Pool) : Pool := p.modify j fun u => { u with leased := false }

/-- The pool of selector `k`. -/
def State.poolOf (s : State) (k : BitVec 2) : Pool := s.pool[k.toNat]?.getD []

/-- The four steps of R271 on one pool: the digest and the pool afterwards. -/
def finalizeIn (k : BitVec 2) (pick : Nat) (m : List Byte) (p : Pool) : Vector Byte 32 × Pool :=
  let (j, p) := p.lease pick
  let p := (p.resetUnit j).feed j m
  (p.digest k j, p.giveBack j)

/-- `HF_FINALIZE` (R230, R231): the selector is `ST[0][1:0]`. -/
def execHfFinalize (s : State) : Host.Outcome State Fault Refusal :=
  let m := stateBytes s.ctx.st.get
  let k : BitVec 2 := (s.ctx.st.get 0).extractLsb' 0 2
  let (d, p) := finalizeIn k (Config.leasePick s.leases) m.toList (s.poolOf k)
  runCommand (regs .st 25) (fun c => { c with sel := k, digest := .filled 4 (digestWord d) })
    { s with pool := s.pool.setIfInBounds k.toNat p, leases := s.leases + 1 }

end Sys2Proof.Machine
end

