-- ==== Sys2Proof/WellFormed.lean ====
section
/-! DEFINITION. Which terms of `Instr` are instructions of the block. -/

namespace Sys2Proof

/-- R97: the destination is one of `R0` to `R3`. -/
def dstLegal (d : Byte) : Bool := decide (d.toNat ≤ 3)

/-- R98: the source is one of `R0` to `R8`. -/
def srcLegal (s : Byte) : Bool := decide (s.toNat ≤ 8)

/-- The index checks of R97 and R98; commands and RET have no operand field that is checked (R93, R102). -/
def Instr.wellFormed : Instr → Bool
  | .aesExpandKey => true
  | .aesEncryptBlock => true
  | .aesSingleRound => true
  | .aesSingleRoundHeavy => true
  | .rmExec => true
  | .hfFinalize => true
  | .mul d s => dstLegal d && srcLegal s
  | .add d s _ => dstLegal d && srcLegal s
  | .sub d s => dstLegal d && srcLegal s
  | .ror d s => dstLegal d && srcLegal s
  | .rol d s => dstLegal d && srcLegal s
  | .xor d s => dstLegal d && srcLegal s
  | .ret => true

end Sys2Proof
end

