-- ==== Sys2Proof/Decode.lean ====
section
/-! DEFINITION. Decoding of `CMD8` codes and `RM64` words, total and rejecting by cause, and the encoder. -/

namespace Sys2Proof

/-- `OP`, bits 7:0 (R95). -/
def opField (w : W64) : Byte := w.extractLsb' 0 8

/-- `DST`, bits 15:8 (R95). -/
def dstField (w : W64) : Byte := w.extractLsb' 8 8

/-- `SRC`, bits 23:16 (R95). -/
def srcField (w : W64) : Byte := w.extractLsb' 16 8

/-- `RSV`, bits 31:24 (R95). -/
def rsvField (w : W64) : Byte := w.extractLsb' 24 8

/-- `C`, bits 63:32 (R95). -/
def constField (w : W64) : W32 := w.extractLsb' 32 32

/-- The checks R101 makes on a word that is not a RET, in its order: RSV, then DST, then SRC. -/
def checkOperands (w : W64) (i : Instr) : Except Cause Instr :=
  if rsvField w ≠ 0 then .error .reservedNonzero
  else if dstLegal (dstField w) = false then .error .illegalDst
  else if srcLegal (srcField w) = false then .error .illegalSrc
  else .ok i

/-- `Decode(w)` of R101, with the opcodes of R96. -/
def decodeRm (w : W64) : Except Cause Instr :=
  match (opField w).toNat with
  | 0 => checkOperands w (.mul (dstField w) (srcField w))
  | 1 => checkOperands w (.add (dstField w) (srcField w) (constField w))
  | 2 => checkOperands w (.sub (dstField w) (srcField w))
  | 3 => checkOperands w (.ror (dstField w) (srcField w))
  | 4 => checkOperands w (.rol (dstField w) (srcField w))
  | 5 => checkOperands w (.xor (dstField w) (srcField w))
  | 6 => .ok .ret
  | _ => .error .illegalOpcode

/-- The assigned command codes of R91; every other code is R92's `ILLEGAL_COMMAND`. -/
def decodeCmd (c : Byte) : Except Cause Instr :=
  match c.toNat with
  | 0x01 => .ok .aesExpandKey
  | 0x02 => .ok .aesEncryptBlock
  | 0x03 => .ok .aesSingleRound
  | 0x04 => .ok .aesSingleRoundHeavy
  | 0x10 => .ok .rmExec
  | 0x20 => .ok .hfFinalize
  | _ => .error .illegalCommand

/-- Decoding of either format. -/
def decode : Code → Except Cause Instr
  | .cmd8 c => decodeCmd c
  | .rm64 w => decodeRm w

/-- An `RM64` word from its fields, RSV zero (R95, R106). -/
def rmWord (op dst src : Byte) (c : W32) : W64 := c ++ 0#8 ++ src ++ dst ++ op

/-- The code of a command (R91) or the word an assembler writes for an instruction (R95, R96, R106: ignored fields
zero). -/
def encode : Instr → Code
  | .aesExpandKey => .cmd8 0x01#8
  | .aesEncryptBlock => .cmd8 0x02#8
  | .aesSingleRound => .cmd8 0x03#8
  | .aesSingleRoundHeavy => .cmd8 0x04#8
  | .rmExec => .cmd8 0x10#8
  | .hfFinalize => .cmd8 0x20#8
  | .mul d s => .rm64 (rmWord 0#8 d s 0#32)
  | .add d s c => .rm64 (rmWord 1#8 d s c)
  | .sub d s => .rm64 (rmWord 2#8 d s 0#32)
  | .ror d s => .rm64 (rmWord 3#8 d s 0#32)
  | .rol d s => .rm64 (rmWord 4#8 d s 0#32)
  | .xor d s => .rm64 (rmWord 5#8 d s 0#32)
  | .ret => .rm64 (rmWord 6#8 0#8 0#8 0#32)

/-- A word with the fields that its decoding ignores set to zero (R102). -/
def canonicalWord (w : W64) : W64 :=
  match (opField w).toNat with
  | 1 => w
  | 6 => 6#64
  | _ => (w.extractLsb' 0 32).setWidth 64

/-- A code with its ignored bits set to zero. -/
def Code.canonical : Code → Code
  | .cmd8 c => .cmd8 c
  | .rm64 w => .rm64 (canonicalWord w)

/-- The code meant by an opcode-table row: 8 bits are a `CMD8` code, more are an `RM64` word. RET's row fixes bits
7:0 alone, so an 8-bit 6, which is no command code (R92), is read as the RET word. -/
def tableCode (nbits w : Nat) : Code :=
  if nbits ≤ 8 ∧ w % 256 ≠ 6 then .cmd8 (BitVec.ofNat 8 w) else .rm64 (BitVec.ofNat 64 w)

/-- What the decoder reads from a row's bits, in the table's own numbering. -/
def decodeTableWord (nbits w : Nat) : Option Instr :=
  match decode (tableCode nbits w) with
  | .ok i => some i
  | .error _ => none

end Sys2Proof
end

