-- ==== Sys2Proof/Machine/Rmu.lean ====
section
/-! DEFINITION. The random-math interpreter: `RM_EXEC` (R180) and the seven instructions (R184 to R195). -/

namespace Sys2Proof.Machine

/-- `ALU(MUL)` (R188): the low 32 bits of the product. -/
def aluMul (a b : W32) : W32 := a * b

/-- `ALU(ADD)` (R189). -/
def aluAdd (c a b : W32) : W32 := a + b + c

/-- `ALU(SUB)` (R190). -/
def aluSub (a b : W32) : W32 := a - b

/-- `ALU(ROR)` (R191): by `b mod 32`, a zero shift leaving `a`. -/
def aluRor (a b : W32) : W32 :=
  if b.toNat % 32 = 0 then a else (a >>> (b.toNat % 32)) ||| (a <<< (32 - b.toNat % 32))

/-- `ALU(ROL)` (R192). -/
def aluRol (a b : W32) : W32 :=
  if b.toNat % 32 = 0 then a else (a <<< (b.toNat % 32)) ||| (a >>> (32 - b.toNat % 32))

/-- `ALU(XOR)` (R193). -/
def aluXor (a b : W32) : W32 := a ^^^ b

/-- The end of an executed instruction: `PC <- PC + 1` (R185), and the cap when `PC` becomes 70 (R186). -/
def Context.advance (c : Context) : Context :=
  if c.pc + 1#7 = 70#7 then
    { c with pc := 70#7, status := { c.status with state := .done, cap := true, fpc := 70#7 } }
  else { c with pc := c.pc + 1#7 }

/-- The body of R181 for an ALU instruction: both operands are read before the one register write (R184, R195). An
index that R97 or R98 calls illegal raises the cause those rules name, DST before SRC (R264). -/
def aluStep (d s : Byte) (alu : W32 → W32 → W32) (st : State) : Host.Outcome State Fault Refusal :=
  if dstLegal d = false then .next (raiseRm .illegalDst st)
  else if srcLegal s = false then .next (raiseRm .illegalSrc st)
  else
    .next (st.mapCtx fun c =>
      let c := c.noteReads c.pc [{ space := .r, index := d.toNat }, { space := .r, index := s.toNat }]
      Context.advance { c with r := c.r.set d.toNat (alu (c.r.get d.toNat) (c.r.get s.toNat)) })

/-- `MUL Rd, Rs` (R188). -/
def execMul (d s : Byte) (st : State) : Host.Outcome State Fault Refusal := aluStep d s aluMul st

/-- `ADD Rd, Rs, C` (R189). -/
def execAdd (d s : Byte) (c : W32) (st : State) : Host.Outcome State Fault Refusal := aluStep d s (aluAdd c) st

/-- `SUB Rd, Rs` (R190). -/
def execSub (d s : Byte) (st : State) : Host.Outcome State Fault Refusal := aluStep d s aluSub st

/-- `ROR Rd, Rs` (R191). -/
def execRor (d s : Byte) (st : State) : Host.Outcome State Fault Refusal := aluStep d s aluRor st

/-- `ROL Rd, Rs` (R192). -/
def execRol (d s : Byte) (st : State) : Host.Outcome State Fault Refusal := aluStep d s aluRol st

/-- `XOR Rd, Rs` (R193). -/
def execXor (d s : Byte) (st : State) : Host.Outcome State Fault Refusal := aluStep d s aluXor st

/-- `RET` (R194): `FPC <- PC`, `STATE <- DONE`. -/
def execRet (st : State) : Host.Outcome State Fault Refusal :=
  .next (st.mapCtx fun c => { c with status := { c.status with state := .done, fpc := c.pc } })

/-- `RM_EXEC` (R180): the run starts at slot 0; its steps follow while `BUSY`. -/
def execRmExec (st : State) : Host.Outcome State Fault Refusal :=
  .next (st.mapCtx fun c => { c.start with pc := 0#7 })

end Sys2Proof.Machine
end

