-- ==== Sys2Proof/Machine/Dispatch.lean ====
section
/-! DEFINITION. One arm per constructor of `Instr`: the meaning of each command and instruction. -/

namespace Sys2Proof.Machine

def exec (i : Instr) (s : State) : Host.Outcome State Fault Refusal :=
  match i with
  | .aesExpandKey => Sys2Proof.Machine.execAesExpandKey s
  | .aesEncryptBlock => Sys2Proof.Machine.execAesEncryptBlock s
  | .aesSingleRound => Sys2Proof.Machine.execAesSingleRound s
  | .aesSingleRoundHeavy => Sys2Proof.Machine.execAesSingleRoundHeavy s
  | .rmExec => Sys2Proof.Machine.execRmExec s
  | .hfFinalize => Sys2Proof.Machine.execHfFinalize s
  | .mul dst src => Sys2Proof.Machine.execMul dst src s
  | .add dst src c => Sys2Proof.Machine.execAdd dst src c s
  | .sub dst src => Sys2Proof.Machine.execSub dst src s
  | .ror dst src => Sys2Proof.Machine.execRor dst src s
  | .rol dst src => Sys2Proof.Machine.execRol dst src s
  | .xor dst src => Sys2Proof.Machine.execXor dst src s
  | .ret => Sys2Proof.Machine.execRet s

end Sys2Proof.Machine
end

