-- ==== Sys2Proof/Machine/HostAccess.lean ====
section
/-! DEFINITION. Host register accesses (R60, R61, R70, R73). -/

namespace Sys2Proof.Machine

/-- How many registers a space has (R60). -/
def Space.entries : Space → Nat
  | .key => 4
  | .rk => 40
  | .inp => 2
  | .rkey => 2
  | .out => 2
  | .kout => 2
  | .r => 9
  | .pmem => 71
  | .st => 25
  | .sel => 1
  | .digest => 4
  | .cmd => 1
  | .status => 1

/-- How many bits an access to a space moves (R61). R61 gives `SEL` the 32 bits of a read; that a write of `SEL`, which
is ignored, has the same width is the model's choice (log entry 11). -/
def Space.width : Space → Nat
  | .key => 64
  | .rk => 32
  | .inp => 64
  | .rkey => 64
  | .out => 64
  | .kout => 64
  | .r => 32
  | .pmem => 64
  | .st => 64
  | .sel => 32
  | .digest => 64
  | .cmd => 8
  | .status => 32

/-- The register an access names. -/
def HostAccess.reg : HostAccess → RegRef
  | .read sp i _ => { space := sp, index := i }
  | .write sp i _ _ => { space := sp, index := i }

/-- The width an access moves. -/
def HostAccess.bits : HostAccess → Nat
  | .read _ _ b => b
  | .write _ _ b _ => b

/-- Why an access cannot be made at all: an index that does not exist (R73), or not one whole register (R61). -/
def HostAccess.refusal (a : HostAccess) : Option Refusal :=
  if a.reg.space.entries ≤ a.reg.index then some .noSuchRegister
  else if a.bits ≠ a.reg.space.width then some .partialWidth
  else none

/-- A read of `STATUS`, the host's one move in a `BUSY` context (R77). -/
def HostAccess.isStatusRead : HostAccess → Bool
  | .read sp _ _ => decide (sp = .status)
  | .write _ _ _ _ => false

/-- The value a host read returns, zero-extended to 64 bits (R61, R70); `CMD` reads 0 (R35). -/
def Context.hostValue (c : Context) (x : RegRef) : W64 :=
  match x.space with
  | .key => c.key.get x.index
  | .rk => (c.rk.get x.index).setWidth 64
  | .inp => c.inp.get x.index
  | .rkey => c.rkey.get x.index
  | .out => c.out.get x.index
  | .kout => c.kout.get x.index
  | .r => (c.r.get x.index).setWidth 64
  | .pmem => c.pmem.get x.index
  | .st => c.st.get x.index
  | .sel => c.sel.setWidth 64
  | .digest => c.digest.get x.index
  | .cmd => 0#64
  | .status => (statusWord c.status).setWidth 64

/-- A host write of a register other than `CMD`; writes to `STATUS`, `SEL`, `KOUT` and `DIGEST` are ignored (R70). A
write of `CMD` starts a command and is `Machine/Sequence.lean`'s. -/
def Context.hostWrite (c : Context) (x : RegRef) (v : W64) : Context :=
  match x.space with
  | .key => { c with key := c.key.set x.index v }
  | .rk => { c with rk := c.rk.set x.index (v.setWidth 32) }
  | .inp => { c with inp := c.inp.set x.index v }
  | .rkey => { c with rkey := c.rkey.set x.index v }
  | .out => { c with out := c.out.set x.index v }
  | .r => { c with r := c.r.set x.index (v.setWidth 32) }
  | .pmem => { c with pmem := c.pmem.set x.index v }
  | .st => { c with st := c.st.set x.index v }
  | .kout => c
  | .sel => c
  | .digest => c
  | .status => c
  | .cmd => c

/-- The input that a host read at a bus address stands for: the access to the register that `BUS_MAP` puts there
(R71). -/
def busRead (addr bits : Nat) : Option Input :=
  (Config.busMap addr).map fun p => .host p.1 (.read p.2.space p.2.index bits)

/-- The input that a host write at a bus address stands for (R71). -/
def busWrite (addr bits : Nat) (v : W64) : Option Input :=
  (Config.busMap addr).map fun p => .host p.1 (.write p.2.space p.2.index bits v)

end Sys2Proof.Machine
end

