-- ==== Sys2Proof/Machine/Sequence.lean ====
section
/-! DEFINITION. What the step calls: an RM step with its fetch (R181, R182), a `CMD` write (R37, R92), a host access
with the hold (R77), and the step of a block with no input. -/

namespace Sys2Proof.Machine

/-- One RMU step of the moving context (R181): fetch (R182), decode (R101), execute or fault. R182
says that no fetch is at a `PC` of 70 or more; that the step stops there is DESIGN CHOICE (log entry 12). -/
def rmStep (s : State) : Host.Outcome State Fault Refusal :=
  if 70 ≤ s.ctx.pc.toNat then .fault .fetchRange
  else
    let t := s.mapCtx (·.noteReads s.ctx.pc [{ space := .pmem, index := s.ctx.pc.toNat }])
    match decodeRm (s.ctx.pmem.get s.ctx.pc.toNat) with
    | .ok i => exec i t
    | .error c => .next (raiseRm c t)

/-- A write of code `c` into `CMD` of a context that is not `BUSY` (R37, R91, R92). -/
def issueCommand (c : Byte) (s : State) : Host.Outcome State Fault Refusal :=
  let t := s.mapCtx fun x => { x with cmd := c }
  match decodeCmd c with
  | .ok i => exec i t
  | .error e => .next (raiseCmd e t)

/-- A host read of the moving context (R70): the value goes to the host. -/
def hostRead (x : RegRef) (s : State) : State :=
  { s.mapCtx (·.noteReads 0#7 [x]) with
    hostData := some { ctx := s.ctxId, reg := x, value := s.ctx.hostValue x } }

/-- A host access that takes effect. -/
def performAccess (a : HostAccess) (s : State) : Host.Outcome State Fault Refusal :=
  match a with
  | .read sp i _ => .next (hostRead { space := sp, index := i } s)
  | .write sp i _ v =>
    if sp = .cmd then issueCommand (v.setWidth 8) s
    else .next (s.mapCtx (·.hostWrite { space := sp, index := i } v))

/-- The step of a host access to context `k`, `rest` being the inputs after it. An access the interface cannot
express is refused (R61, R73). In a `BUSY` context every access but a `STATUS` read holds (R77): the input stays, and
what moves is the run that lifts the hold.
Either way the context accessed is the one that has the turn afterwards, though another was `BUSY` and moving: the spec
leaves the order of contexts open (I24), and this is the model's choice (log entry 4). -/
def hostStep (k : Nat) (a : HostAccess) (rest : List Input) (s : State) : Host.Outcome State Fault Refusal :=
  match s.focus k with
  | none => .refused .noSuchContext
  | some t =>
    match a.refusal with
    | some r => .refused r
    | none =>
      if t.ctx.busy && !a.isStatusRead then rmStep t
      else performAccess a { t with inputs := rest }

/-- The turn of context `k` (R75, R309): its RMU takes one step if it runs one; a context that is not `BUSY` has no
move of its own (R302). -/
def turnStep (k : Nat) (s : State) : Host.Outcome State Fault Refusal :=
  match s.focus k with
  | none => .refused .noSuchContext
  | some t => if t.ctx.busy then rmStep t else .next t

/-- The step when no input waits: the moving context runs on, or the turn passes (R302, R309). -/
def restStep (s : State) : Host.Outcome State Fault Refusal :=
  if s.ctx.busy then rmStep s else .next s.passTurn

/-- The block made ready so that the next step issues command code `c` in the moving context. -/
def State.withCommand (s : State) (c : Byte) : State :=
  let t := if s.ctx.busy then s.mapCtx fun x => { x with status := { x.status with state := .idle } } else s
  { t with inputs := .host s.ctxId (.write .cmd 0 8 (c.setWidth 64)) :: s.inputs }

/-- The block made ready so that the next step fetches and runs the word `w` in the moving context: `w` in the slot
of `PC` (of slot 0 where `PC` is past the last slot a fetch reads), a run in progress, and that context's turn. -/
def State.withSlot (s : State) (w : W64) : State :=
  let pc := if 70 ≤ s.ctx.pc.toNat then 0#7 else s.ctx.pc
  { s.mapCtx fun x =>
      { x with pc := pc, pmem := x.pmem.set pc.toNat w, status := { x.status with state := .busy } } with
    inputs := .turn s.ctxId :: s.inputs }

end Sys2Proof.Machine
end

