-- ==== Sys2Proof/Machine/Step.lean ====
section
/-! DEFINITION. One step of the block. -/

namespace Sys2Proof.Machine

/-- One step: the first input moves, or, where none waits, the context whose turn it is. -/
def step (s : State) : Host.Outcome State Fault Refusal :=
  match s.inputs with
  | [] => restStep s
  | .host k a :: rest => hostStep k a rest s
  | .turn k :: rest => turnStep k { s with inputs := rest }
  | .reset :: rest => .next (resetBlock { s with inputs := rest })

/-- The state in which the next step runs the code of an opcode-table row: a command as a `CMD` write waiting, an
instruction in the slot at `PC` of a run in progress (log entry 9). -/
def State.withFetchWord (s : State) (nbits w : Nat) : State :=
  match tableCode nbits w with
  | .cmd8 c => s.withCommand c
  | .rm64 x => s.withSlot x

end Sys2Proof.Machine
end

