-- ==== Sys2Proof/Machine/Assembler.lean ====
section
/-! DEFINITION. The assembly syntax of R106 and the assembler's refusals of R107, over lines given as characters. -/

namespace Sys2Proof.Machine

/-- A blank. -/
def isBlank (c : Char) : Bool := c = ' ' || c = '\t'

/-- A line without the blanks at its two ends. -/
def strip (l : List Char) : List Char := ((l.dropWhile isBlank).reverse.dropWhile isBlank).reverse

/-- The pieces of a line between commas. -/
def splitCommas : List Char → List (List Char)
  | [] => [[]]
  | c :: cs =>
    match splitCommas cs with
    | [] => [[]]
    | p :: ps => if c = ',' then [] :: p :: ps else (c :: p) :: ps

/-- The value of a decimal or upper-case hexadecimal digit. -/
def digitValue (base : Nat) (c : Char) : Option Nat :=
  let v := if '0' ≤ c ∧ c ≤ '9' then c.toNat - '0'.toNat else c.toNat - 'A'.toNat + 10
  if (('0' ≤ c ∧ c ≤ '9') ∨ ('A' ≤ c ∧ c ≤ 'F')) ∧ v < base then some v else none

/-- A number from its digits, most significant first. -/
def digitsValue (base : Nat) (l : List Char) : Option Nat :=
  l.foldl (fun acc c => do return base * (← acc) + (← digitValue base c)) (some 0)

/-- A constant in decimal or `0x` hexadecimal (R106), upper-cased. -/
def asmNumber : List Char → Option Nat
  | [] => none
  | ['0', 'X'] => none
  | '0' :: 'X' :: ds => digitsValue 16 ds
  | ds => digitsValue 10 ds

/-- A register name with an index of at most `top`. -/
def asmReg (top : Nat) : List Char → Option Byte
  | ['R', d] => do
    let i ← digitValue 10 d
    if i ≤ top then some (BitVec.ofNat 8 i) else none
  | _ => none

/-- A two-operand line: destination in `R0` to `R3`, source in `R0` to `R8`, and no constant (R106, R107). -/
def asmTwo (f : Byte → Byte → Instr) : List (List Char) → Option Instr
  | [d, s] => do return f (← asmReg 3 d) (← asmReg 8 s)
  | _ => none

/-- The operands of ADD, whose constant fits 32 bits (R106, R107). -/
def asmAdd : List (List Char) → Option Instr
  | [d, s, n] => do
    let v ← asmNumber n
    if v < 2 ^ 32 then return .add (← asmReg 3 d) (← asmReg 8 s) (BitVec.ofNat 32 v) else none
  | _ => none

/-- The operands of RET: none. -/
def asmRet : List (List Char) → Option Instr
  | [] => some .ret
  | _ :: _ => none

/-- One line of interpreter assembly, case-insensitive (R106); a spelling of R107's list, and any other line, is
rejected. The assembled word is `encode` of the instruction. Where blanks and tabs may stand is DESIGN CHOICE, the spec
saying nothing of it (log entry 13): optional before the mnemonic, at the end of the line (so on both sides of `RET`) and
on both sides of a comma; one or more between a mnemonic and its operands; nowhere else. -/
def assemble (line : List Char) : Option Instr :=
  let l := strip (line.map Char.toUpper)
  let m := l.takeWhile fun c => !isBlank c
  let rest := strip (l.dropWhile fun c => !isBlank c)
  let ops := if rest = [] then [] else (splitCommas rest).map strip
  if m = ['M', 'U', 'L'] then asmTwo .mul ops
  else if m = ['A', 'D', 'D'] then asmAdd ops
  else if m = ['S', 'U', 'B'] then asmTwo .sub ops
  else if m = ['R', 'O', 'R'] then asmTwo .ror ops
  else if m = ['R', 'O', 'L'] then asmTwo .rol ops
  else if m = ['X', 'O', 'R'] then asmTwo .xor ops
  else if m = ['R', 'E', 'T'] then asmRet ops
  else none

/-- A register transfer of the host (R106): a register named with its index, and the value to write or none for a
read. -/
structure Transfer where
  reg : RegRef
  value : Option W64
  deriving DecidableEq, Repr

/-- A host command by its mnemonic (R91, R106). R106 says case-insensitive of interpreter lines only: that a command line
is read in either case, and with blanks at its ends, is DESIGN CHOICE (log entry 13). -/
def assembleCommand (line : List Char) : Option Instr :=
  let l := strip (line.map Char.toUpper)
  let aes := ['A', 'E', 'S', '_']
  let single := aes ++ ['S', 'I', 'N', 'G', 'L', 'E', '_', 'R', 'O', 'U', 'N', 'D']
  if l = aes ++ ['E', 'X', 'P', 'A', 'N', 'D', '_', 'K', 'E', 'Y'] then some .aesExpandKey
  else if l = aes ++ ['E', 'N', 'C', 'R', 'Y', 'P', 'T', '_', 'B', 'L', 'O', 'C', 'K'] then some .aesEncryptBlock
  else if l = single then some .aesSingleRound
  else if l = single ++ ['_', 'H', 'E', 'A', 'V', 'Y'] then some .aesSingleRoundHeavy
  else if l = ['R', 'M', '_', 'E', 'X', 'E', 'C'] then some .rmExec
  else if l = ['H', 'F', '_', 'F', 'I', 'N', 'A', 'L', 'I', 'Z', 'E'] then some .hfFinalize
  else none

/-- The register spaces by name (R60). -/
def spaceNames : List (List Char × Space) :=
  [(['K', 'E', 'Y'], .key), (['R', 'K'], .rk), (['I', 'N'], .inp), (['R', 'K', 'E', 'Y'], .rkey),
   (['O', 'U', 'T'], .out), (['K', 'O', 'U', 'T'], .kout), (['R'], .r), (['P', 'M', 'E', 'M'], .pmem),
   (['S', 'T'], .st), (['S', 'E', 'L'], .sel), (['D', 'I', 'G', 'E', 'S', 'T'], .digest), (['C', 'M', 'D'], .cmd),
   (['S', 'T', 'A', 'T', 'U', 'S'], .status)]

/-- The index in brackets after a register's name (R106). A space of one register may be written without an index, as
the spec writes `CMD`, or with the index 0, which the spec does not settle; the index is a decimal number, leading zeros
allowed, with no blank in or before the brackets, where the spec gives examples only: DESIGN CHOICE (log entry 13). -/
def asmIndex (sp : Space) : List Char → Option Nat
  | [] => if sp.entries = 1 then some 0 else none
  | '[' :: l =>
    match l.reverse with
    | ']' :: d :: ds => digitsValue 10 (d :: ds).reverse
    | _ => none
  | _ => none

/-- A register of the host's interface, one that exists (R73). -/
def asmRegRef (l : List Char) : Option RegRef := do
  let (_, sp) ← spaceNames.find? fun p => p.1 = l.takeWhile fun c => c ≠ '['
  let i ← asmIndex sp (l.dropWhile fun c => c ≠ '[')
  if i < sp.entries then some { space := sp, index := i } else none

/-- The two sides of an arrow. -/
def splitArrow : List Char → Option (List Char × List Char)
  | [] => none
  | '<' :: '-' :: cs => some ([], cs)
  | c :: cs => (splitArrow cs).map fun p => (c :: p.1, p.2)

/-- A register transfer line: a number into a register of that width, or `v` from a register (R106). The spec gives
these lines by example only: the notation of the number, that a line is read in either case, and that blanks at its ends
and round the arrow are optional, are DESIGN CHOICE (log entry 13). -/
def assembleTransfer (line : List Char) : Option Transfer := do
  let (a, b) ← splitArrow (line.map Char.toUpper)
  if strip a = ['V'] then return { reg := ← asmRegRef (strip b), value := none }
  else
    let x ← asmRegRef (strip a)
    let v ← asmNumber (strip b)
    if v < 2 ^ x.space.width then return { reg := x, value := some (BitVec.ofNat 64 v) } else none

/-- The whole-register access a transfer stands for (R61). -/
def Transfer.access (t : Transfer) : HostAccess :=
  match t.value with
  | some v => .write t.reg.space t.reg.index t.reg.space.width v
  | none => .read t.reg.space t.reg.index t.reg.space.width

end Sys2Proof.Machine
end

