-- ==== Sys2Proof/Safety.lean ====
section
/-! DEFINITION. What the claims call a safe run: the spec's model-only fault `UNINIT_READ` (R43, R263), the invariant
of the block's control state, and the relations that say which values and which contexts a step may depend on. -/

namespace Sys2Proof.Machine

/-- No context's fault record holds an unwritten read (R263). -/
def State.clean (s : State) : Bool := s.contexts.all fun c => c.uninit.isNone

/-- The step as R263 has a model take it: where a step reads a register that is not written, or an earlier one did,
the fault `UNINIT_READ` is raised and no state results. A fault of one context stops the whole block, the other contexts
included: the spec does not say, and this is the model's choice (log entry 2). -/
def checkedStep (s : State) : Host.Outcome State Fault Refusal :=
  match step s with
  | .next t => if t.clean then .next t else .fault .uninitRead
  | .fault f => .fault f
  | .refused r => .refused r

/-- What holds of the control state of a context at every moment: the legal values of R31 and R36 to R40, and R182's
bound on a fetch. -/
structure Context.Inv (c : Context) : Prop where
  pc_le : c.pc.toNat ≤ 70
  fpc_le : c.status.fpc.toNat ≤ 70
  busy_pc : c.status.state = .busy → c.pc.toNat ≤ 69
  busy_fpc : c.status.state = .busy → c.status.fpc = 0#7
  idle_fpc : c.status.state = .idle → c.status.fpc = 0#7
  cause_iff : c.status.cause ≠ .none ↔ c.status.state = .fault
  cause_ne : c.status.cause ≠ .uninitRead
  cap_done : c.status.cap = true → c.status.state = .done ∧ c.status.fpc = 70#7

/-- The invariant of the block: that of every context, and no unit leased between two steps, which is the model's reading
of R74 and R230 (log entry 7). -/
structure State.Inv (s : State) : Prop where
  ctxs : ∀ c ∈ s.contexts, c.Inv
  pools : ∀ k : BitVec 2, ∀ u ∈ s.poolOf k, u.leased = false

/-- Two banks with the same written bits and the same values where written. -/
structure RegBank.Agree {w n : Nat} (a b : RegBank w n) : Prop where
  written : a.written = b.written
  val : ∀ i, a.isWritten i = true → a.get i = b.get i

/-- Two contexts that differ at most in the values of unwritten registers. -/
structure Context.Agree (a b : Context) : Prop where
  key : a.key.Agree b.key
  rk : a.rk.Agree b.rk
  inp : a.inp.Agree b.inp
  rkey : a.rkey.Agree b.rkey
  out : a.out.Agree b.out
  kout : a.kout.Agree b.kout
  r : a.r.Agree b.r
  pmem : a.pmem.Agree b.pmem
  st : a.st.Agree b.st
  digest : a.digest.Agree b.digest
  pc : a.pc = b.pc
  sel : a.sel = b.sel
  cmd : a.cmd = b.cmd
  status : a.status = b.status
  uninit : a.uninit = b.uninit

/-- Two blocks that differ at most in the values of unwritten registers. -/
structure State.Agree (s t : State) : Prop where
  lower : List.Forall₂ Context.Agree s.lower t.lower
  ctx : s.ctx.Agree t.ctx
  upper : List.Forall₂ Context.Agree s.upper t.upper
  pool : s.pool = t.pool
  inputs : s.inputs = t.inputs
  hostData : s.hostData = t.hostData
  leases : s.leases = t.leases

/-- The registers a command or instruction reads, in the order its rule lists them (R137 to R140, R184, R194, R230);
`RM_EXEC` reads its operands during the run (R180). -/
def operandsOf : Instr → List RegRef
  | .aesExpandKey => regs .key 4
  | .aesEncryptBlock => regs .inp 2 ++ regs .rk 40
  | .aesSingleRound => regs .inp 2 ++ regs .rkey 2
  | .aesSingleRoundHeavy => regs .inp 2 ++ regs .rkey 2
  | .rmExec => []
  | .hfFinalize => regs .st 25
  | .mul d s => [{ space := .r, index := d.toNat }, { space := .r, index := s.toNat }]
  | .add d s _ => [{ space := .r, index := d.toNat }, { space := .r, index := s.toNat }]
  | .sub d s => [{ space := .r, index := d.toNat }, { space := .r, index := s.toNat }]
  | .ror d s => [{ space := .r, index := d.toNat }, { space := .r, index := s.toNat }]
  | .rol d s => [{ space := .r, index := d.toNat }, { space := .r, index := s.toNat }]
  | .xor d s => [{ space := .r, index := d.toNat }, { space := .r, index := s.toNat }]
  | .ret => []

/-- The next step of `s` is an RM step of `t`'s moving context: a run goes on with no input waiting, in its own turn,
or while a host access holds (R77, R181). -/
inductive NextRm (s : State) : State → Prop where
  | rest (hi : s.inputs = []) (hb : s.ctx.busy = true) : NextRm s s
  | turn {k : Nat} {rest : List Input} {t : State} (hi : s.inputs = .turn k :: rest)
      (hf : State.focus { s with inputs := rest } k = some t) (hb : t.ctx.busy = true) : NextRm s t
  | held {k : Nat} {a : HostAccess} {rest : List Input} {t : State} (hi : s.inputs = .host k a :: rest)
      (hf : s.focus k = some t) (hr : a.refusal = none) (hb : t.ctx.busy = true) (hs : a.isStatusRead = false) :
      NextRm s t

/-- The next step of `s` is the write of code `c` into `CMD` of `t`'s moving context, which is not `BUSY`; in `t` the
input is taken and `CMD` holds the code (R37, R90). -/
inductive NextCommand (s : State) (c : Byte) : State → Prop where
  | write {k : Nat} {v : W64} {rest : List Input} {t : State}
      (hi : s.inputs = .host k (.write .cmd 0 8 v) :: rest) (hc : v.setWidth 8 = c)
      (hf : s.focus k = some t) (hb : t.ctx.busy = false) :
      NextCommand s c { t with inputs := rest, ctx := { t.ctx with cmd := c } }

end Sys2Proof.Machine
end

