-- ==== Sys2Proof/Certificates/Slice0/Obligations.lean ====
section
/-! DEFINITION. The statements for the provers, from the numbered rules of the spec. -/

open Sys2Proof Sys2Proof.Machine

/-! ### Encoding -/

/-- R95, R96, R101: decoding what the encoder writes for a well-formed instruction gives that instruction. -/
def Obligations.DecodeOfEncodeGivesTheInstruction : Prop :=
  ∀ i : Instr, i.wellFormed = true → decode (encode i) = .ok i

/-- R101, R102: a code that decodes is, but for the bits its decoding ignores, the encoding of what it decodes to, and
what it decodes to is well-formed. -/
def Obligations.EncodeOfDecodeGivesTheCanonicalCode : Prop :=
  ∀ (c : Code) (i : Instr), decode c = .ok i → encode i = c.canonical ∧ i.wellFormed = true

/-- R101: the outcome of decoding a word for every value of its fields, in the rule's order of checks. -/
def Obligations.DecodeChecksFieldsInTheOrderOfTheRule : Prop :=
  ∀ w : W64,
    let op := (w.extractLsb' 0 8).toNat
    let d := w.extractLsb' 8 8
    let s := w.extractLsb' 16 8
    let rsv := w.extractLsb' 24 8
    let c := w.extractLsb' 32 32
    (6 < op → decodeRm w = .error .illegalOpcode) ∧
    (op = 6 → decodeRm w = .ok .ret) ∧
    (op < 6 → rsv ≠ 0#8 → decodeRm w = .error .reservedNonzero) ∧
    (op < 6 → rsv = 0#8 → 3 < d.toNat → decodeRm w = .error .illegalDst) ∧
    (op < 6 → rsv = 0#8 → d.toNat ≤ 3 → 8 < s.toNat → decodeRm w = .error .illegalSrc) ∧
    (op < 6 → rsv = 0#8 → d.toNat ≤ 3 → s.toNat ≤ 8 →
      some (decodeRm w) =
        [.ok (.mul d s), .ok (.add d s c), .ok (.sub d s), .ok (.ror d s), .ok (.rol d s), .ok (.xor d s)][op]?)

/-- R102: RET's decoding depends on bits 7:0 alone, and that of MUL, SUB, ROR, ROL and XOR not on bits 63:32; an ADD
word is the only one that decodes to its instruction. -/
def Obligations.DecodeIgnoresDontCareBits : Prop :=
  (∀ w : W64, w.extractLsb' 0 8 = 6#8 → decodeRm w = .ok .ret) ∧
  (∀ w w' : W64, w.extractLsb' 0 32 = w'.extractLsb' 0 32 → w.extractLsb' 0 8 ∈ [0#8, 2#8, 3#8, 4#8, 5#8] →
    decodeRm w = decodeRm w') ∧
  (∀ (w w' : W64) (i : Instr), w.extractLsb' 0 8 = 1#8 → decodeRm w = .ok i → decodeRm w' = .ok i → w' = w)

/-- R91, R92: the assigned command codes and their commands; every other code is an illegal command. -/
def Obligations.CommandCodesAreTheAssignedOnes : Prop :=
  decodeCmd 0x01#8 = .ok .aesExpandKey ∧ decodeCmd 0x02#8 = .ok .aesEncryptBlock ∧
  decodeCmd 0x03#8 = .ok .aesSingleRound ∧ decodeCmd 0x04#8 = .ok .aesSingleRoundHeavy ∧
  decodeCmd 0x10#8 = .ok .rmExec ∧ decodeCmd 0x20#8 = .ok .hfFinalize ∧
  ∀ c : Byte, c ∉ [0x01#8, 0x02#8, 0x03#8, 0x04#8, 0x10#8, 0x20#8] → decodeCmd c = .error .illegalCommand

/-- R109: the spec's five encoding examples: each word is the instruction's encoding and decodes to it. -/
def Obligations.ExampleWordsDecode : Prop :=
  decodeRm 0x0000001000040001#64 = .ok (.add 0#8 4#8 0x10#32) ∧
  decodeRm 0x0000000000000100#64 = .ok (.mul 1#8 0#8) ∧
  decodeRm 0x0000000000050303#64 = .ok (.ror 3#8 5#8) ∧
  decodeRm 0x0000000000080305#64 = .ok (.xor 3#8 8#8) ∧
  decodeRm 0x0000000000000006#64 = .ok .ret ∧
  encode (.add 0#8 4#8 0x10#32) = .rm64 0x0000001000040001#64 ∧
  encode (.mul 1#8 0#8) = .rm64 0x0000000000000100#64 ∧
  encode (.ror 3#8 5#8) = .rm64 0x0000000000050303#64 ∧
  encode (.xor 3#8 8#8) = .rm64 0x0000000000080305#64 ∧
  encode .ret = .rm64 0x0000000000000006#64

/-- R106, R107: every line the assembler accepts is written as a word that decodes to the instruction of the line.
Where blanks may stand in a line is the model's choice (log entry 13). -/
def Obligations.AssembledLinesDecode : Prop :=
  ∀ (line : List Char) (i : Instr), assemble line = some i → ∃ w : W64, encode i = .rm64 w ∧ decodeRm w = .ok i

/-- R61, R73, R106: every transfer line that is accepted stands for an access the interface can express, of a whole
register that exists. Which lines are accepted is the model's choice (log entry 13). -/
def Obligations.TransferLinesNameWholeRegisters : Prop :=
  ∀ (line : List Char) (t : Transfer), assembleTransfer line = some t → t.access.refusal = none

/-! ### Reset -/

/-- R301: every context after reset; the written bits of R43 are clear, so no value of a data register is stated. -/
def Obligations.ResetLeavesTheStatedValues : Prop :=
  State.reset.contexts.length = Config.extraContexts + 1 ∧
  (∀ c ∈ State.reset.contexts,
    statusWord c.status = 0#32 ∧ c.pc = 0#7 ∧ c.sel = 0#2 ∧ c.hostValue { space := .cmd, index := 0 } = 0#64 ∧
    ∀ x : RegRef, x.space ∉ [Space.sel, Space.cmd, Space.status] → c.isWritten x = false) ∧
  (∀ k : BitVec 2, State.reset.poolOf k = [])

/-- R300: a reset input puts every context into the reset state and empties every pool in one step, whatever the
block was doing; the model's fault record stays (R263). The value `Context.reset` gives a data register, zero, is the
model's choice (log entry 1). -/
def Obligations.ResetInputResetsTheWholeBlock : Prop :=
  ∀ (s : State) (rest : List Input), s.inputs = .reset :: rest →
    ∃ t, step s = .next t ∧ t.inputs = rest ∧
      t.contexts = s.contexts.map (fun c => { Context.reset with uninit := c.uninit }) ∧
      ∀ k : BitVec 2, t.poolOf k = []

/-! ### Commands and STATUS -/

/-- R36, R260: the fields of `STATUS` lie in bits 1:0, 2, 15:8 and 22:16 with the codes of those rules, the reserved bits
read 0, and a host write of `STATUS` changes nothing. -/
def Obligations.StatusFieldsLieAsStated : Prop :=
  (∀ st : Status,
    (statusWord st).extractLsb' 0 2 =
      (match st.state with
        | .idle => 0#2
        | .busy => 1#2
        | .done => 2#2
        | .fault => 3#2) ∧
    (statusWord st).getLsbD 2 = st.cap ∧
    (statusWord st).extractLsb' 3 5 = 0#5 ∧
    (statusWord st).extractLsb' 8 8 =
      (match st.cause with
        | .none => 0x00#8
        | .illegalOpcode => 0x01#8
        | .illegalDst => 0x02#8
        | .illegalSrc => 0x03#8
        | .reservedNonzero => 0x04#8
        | .illegalCommand => 0x05#8
        | .uninitRead => 0x06#8) ∧
    (statusWord st).extractLsb' 16 7 = st.fpc ∧
    (statusWord st).extractLsb' 23 9 = 0#9) ∧
  statusWord Context.reset.status = 0#32 ∧
  ∀ (c : Context) (v : W64), c.hostWrite { space := .status, index := 0 } v = c

/-- R91, R37: the write of an assigned code into `CMD` of a context that is not `BUSY` runs that command. That `CMD` holds
the code is the model's choice (log entry 5). -/
def Obligations.StepRunsTheDecodedCommand : Prop :=
  ∀ (s t : State) (c : Byte) (i : Instr), NextCommand s c t → decodeCmd c = .ok i → step s = exec i t

/-- R92: the write of an unassigned code into `CMD` of a context that is not `BUSY` sets `STATE`, `CAUSE`, `CAP` and
`FPC` and changes no other register. That `CMD` itself then holds the code is the model's choice (log entry 5). -/
def Obligations.UnassignedCodeOnlyFaults : Prop :=
  ∀ (s t : State) (c : Byte), NextCommand s c t → c ∉ [0x01#8, 0x02#8, 0x03#8, 0x04#8, 0x10#8, 0x20#8] →
    step s = .next { t with ctx := { t.ctx with
      status := { state := .fault, cap := false, cause := .illegalCommand, fpc := 0#7 } } }

/-- R37, R38, R39, R40: a completed AESU or HFU command leaves `DONE` with `CAP`, `CAUSE` and `FPC` zero, whatever the
status was before. -/
def Obligations.OneStepCommandsEndDone : Prop :=
  ∀ (i : Instr) (s : State),
    i ∈ [.aesExpandKey, .aesEncryptBlock, .aesSingleRound, .aesSingleRoundHeavy, .hfFinalize] →
    ∃ t, exec i s = .next t ∧ statusWord t.ctx.status = 2#32

/-! ### Host accesses -/

/-- R70, R74: a host write of a register that R44 gives the host to write, followed by a host read of it, returns the
value written, at the register's width, and is no read of an unwritten register (R43). -/
def Obligations.HostReadReturnsTheValueWritten : Prop :=
  ∀ (s t : State) (k i : Nat) (sp : Space) (v : W64) (rest : List Input),
    s.inputs = .host k (.write sp i sp.width v) :: .host k (.read sp i sp.width) :: rest →
    s.focus k = some t → t.ctx.busy = false → i < sp.entries →
    sp ∈ [Space.key, Space.rk, Space.inp, Space.rkey, Space.out, Space.r, Space.pmem, Space.st] →
    ∃ u w, step s = .next u ∧ step u = .next w ∧ w.inputs = rest ∧ w.ctx.uninit = t.ctx.uninit ∧
      w.hostData = some
        { ctx := k
          reg := { space := sp, index := i }
          value := (v.setWidth sp.width).setWidth 64 }

/-- R70: host writes to `STATUS`, `SEL`, `KOUT` and `DIGEST` are ignored: the step takes the input and changes nothing
else. The width of a write of `SEL` is the model's choice (log entry 11). -/
def Obligations.WritesToReadOnlyRegistersAreIgnored : Prop :=
  ∀ (s t : State) (k i : Nat) (sp : Space) (v : W64) (rest : List Input),
    s.inputs = .host k (.write sp i sp.width v) :: rest → s.focus k = some t → t.ctx.busy = false →
    i < sp.entries → sp ∈ [Space.status, Space.sel, Space.kout, Space.digest] →
    step s = .next { t with inputs := rest }

/-- R70, R77: a read of `STATUS` never holds: it returns the status word and changes no register of any context. That no
RMU moves in its step is the model's reading (log entry 14). -/
def Obligations.StatusReadTakesEffectAtOnce : Prop :=
  ∀ (s t : State) (k : Nat) (rest : List Input),
    s.inputs = .host k (.read .status 0 32) :: rest → s.focus k = some t →
    step s = .next { t with
      inputs := rest
      hostData := some
        { ctx := k
          reg := { space := .status, index := 0 }
          value := (statusWord t.ctx.status).setWidth 64 } }

/-- R70, R61, R35, R26, R34: a host read returns the register of that space and index, zero-extended, and 0 for `CMD`
whatever code it keeps (log entry 5); it has no side effect: in a context that is not `BUSY` it changes only what the host was told and
the model's fault record; what it returns for an unwritten register is log entry 3. -/
def Obligations.HostReadHasNoSideEffect : Prop :=
  ∀ (s t : State) (k i : Nat) (sp : Space) (rest : List Input),
    s.inputs = .host k (.read sp i sp.width) :: rest → s.focus k = some t → t.ctx.busy = false → i < sp.entries →
    ∃ u, step s = .next u ∧
      u = { t with inputs := rest, hostData := u.hostData, ctx := { t.ctx with uninit := u.ctx.uninit } } ∧
      u.hostData = some
        { ctx := k
          reg := { space := sp, index := i }
          value := match sp with
            | .key => t.ctx.key.get i
            | .rk => (t.ctx.rk.get i).setWidth 64
            | .inp => t.ctx.inp.get i
            | .rkey => t.ctx.rkey.get i
            | .out => t.ctx.out.get i
            | .kout => t.ctx.kout.get i
            | .r => (t.ctx.r.get i).setWidth 64
            | .pmem => t.ctx.pmem.get i
            | .st => t.ctx.st.get i
            | .sel => t.ctx.sel.setWidth 64
            | .digest => t.ctx.digest.get i
            | .cmd => 0#64
            | .status => (statusWord t.ctx.status).setWidth 64 } ∧
      (t.ctx.isWritten { space := sp, index := i } = true → u.ctx = t.ctx)

/-- R73: a host access to an index that does not exist is refused. -/
def Obligations.NonexistentRegisterIsRefused : Prop :=
  ∀ (s : State) (k i b : Nat) (sp : Space) (v : W64) (rest : List Input), k < s.contexts.length → sp.entries ≤ i →
    (s.inputs = .host k (.read sp i b) :: rest ∨ s.inputs = .host k (.write sp i b v) :: rest) →
    step s = .refused .noSuchRegister

/-- R61: a host access that does not move one whole register is refused; the width of a write of `SEL` is the model's
choice (log entry 11). -/
def Obligations.PartialAccessIsRefused : Prop :=
  ∀ (s : State) (k i b : Nat) (sp : Space) (v : W64) (rest : List Input), k < s.contexts.length → i < sp.entries →
    b ≠ sp.width → (s.inputs = .host k (.read sp i b) :: rest ∨ s.inputs = .host k (.write sp i b v) :: rest) →
    step s = .refused .partialWidth

/-- R77, R181: in a `BUSY` context every access but a `STATUS` read holds. That it stays first among the inputs and the
block's step is one RM step of that context is the model's reading (log entry 14). -/
def Obligations.AccessHoldsWhileBusy : Prop :=
  ∀ (s t : State) (k : Nat) (a : HostAccess) (rest : List Input),
    s.inputs = .host k a :: rest → s.focus k = some t → t.ctx.busy = true → a.refusal = none →
    a.isStatusRead = false → t.ctx.pc.toNat ≤ 69 →
    ∃ u, rmStep t = .next u ∧ step s = .next u ∧ u.inputs = s.inputs

/-- R77, R197: the run that lifts a hold ends in at most 70 steps, and the access is still waiting then. The steps
counted are the block's, which during a hold are that run's by the model's reading (log entry 14). -/
def Obligations.HoldIsLiftedWithinSeventySteps : Prop :=
  ∀ (s t : State) (k : Nat) (a : HostAccess) (rest : List Input),
    s.inputs = .host k a :: rest → s.focus k = some t → t.ctx.busy = true → a.refusal = none →
    a.isStatusRead = false → t.ctx.pc.toNat ≤ 69 →
    ∃ n u, n ≤ 70 ∧ Host.Core.run Sys2Proof.core n s = .next u ∧ u.inputs = s.inputs ∧ u.ctxId = k ∧
      u.ctx.busy = false

/-! ### AES round engine -/

/-- The affine map `A` of R130. -/
def sboxAffine (b : Byte) : Byte :=
  b ^^^ b.rotateLeft 1 ^^^ b.rotateLeft 2 ^^^ b.rotateLeft 3 ^^^ b.rotateLeft 4 ^^^ 0x63#8

/-- Multiplication in GF(2^8) modulo x^8+x^4+x^3+x+1 (R130, R131), by the bits of the second factor. -/
def gfMul (a b : Byte) : Byte :=
  (List.range 8).foldr (fun i acc => gmul2 acc ^^^ (if b.getLsbD i then a else 0#8)) 0#8

/-- R130: the table is the affine map of the inverse in GF(2^8). -/
def Obligations.SboxIsTheAffineImageOfTheInverse : Prop :=
  sbox 0#8 = sboxAffine 0#8 ∧ ∀ a : Byte, a ≠ 0#8 → ∃ b : Byte, gfMul a b = 1#8 ∧ sbox a = sboxAffine b

/-- R11, R63, R67: the block view and its inverse. -/
def Obligations.BlockViewRoundTrips : Prop :=
  (∀ a b : W64, w2 (b16 a b) = (a, b)) ∧ (∀ s : Block, b16 (w2 s).1 (w2 s).2 = s)

/-- R135: the quarters of a full round are the column steps XORed with the key's quarters. -/
def Obligations.RoundEqualsItsTableForm : Prop :=
  ∀ (b0 b1 k0 k1 : W64) (q : Nat), q < 4 →
    (q4 (w2 (aesenc (b16 b0 b1) (b16 k0 k1))).1 (w2 (aesenc (b16 b0 b1) (b16 k0 k1))).2).get q =
      col (q4 b0 b1) q ^^^ (q4 k0 k1).get q

/-- R139, R43: `AES_SINGLE_ROUND` completes with the four column steps in `OUT`, which counts as written, and writes
nothing else but `STATUS`. -/
def Obligations.SingleRoundCompletesWithItsColumns : Prop :=
  ∀ s : State,
    let x := q4 (s.ctx.inp.get 0) (s.ctx.inp.get 1)
    let kq := q4 (s.ctx.rkey.get 0) (s.ctx.rkey.get 1)
    ∃ t, exec .aesSingleRound s = .next t ∧
      t.ctx.out.get 0 = (col x 1 ^^^ kq.q1) ++ (col x 0 ^^^ kq.q0) ∧
      t.ctx.out.get 1 = (col x 3 ^^^ kq.q3) ++ (col x 2 ^^^ kq.q2) ∧
      t.ctx.out.isWritten 0 = true ∧ t.ctx.out.isWritten 1 = true ∧
      t.ctx.status.state = .done ∧
      t = { s with ctx := { s.ctx with out := t.ctx.out, status := t.ctx.status, uninit := t.ctx.uninit } }

/-- R140, R43: `AES_SINGLE_ROUND_HEAVY` completes with the updated key words in `OUT` and in `KOUT`, which count as
written; each column reads the block as updated by the columns before it. -/
def Obligations.HeavyRoundCompletesWithTheUpdatedKey : Prop :=
  ∀ s : State,
    let x := q4 (s.ctx.inp.get 0) (s.ctx.inp.get 1)
    let x0 := ~~~x.q0; let x1 := ~~~x.q1; let x2 := ~~~x.q2; let x3 := ~~~x.q3
    let kq := q4 (s.ctx.rkey.get 0) (s.ctx.rkey.get 1)
    let k0 := kq.q0 ^^^ (te0 (byteOf x0 0) ^^^ te1 (byteOf x1 1) ^^^ te2 (byteOf x2 2) ^^^ te3 (byteOf x3 3))
    let y0 := x0 ^^^ k0
    let k1 := kq.q1 ^^^ (te0 (byteOf x1 0) ^^^ te1 (byteOf x2 1) ^^^ te2 (byteOf x3 2) ^^^ te3 (byteOf y0 3))
    let y1 := x1 ^^^ k1
    let k2 := kq.q2 ^^^ (te0 (byteOf x2 0) ^^^ te1 (byteOf x3 1) ^^^ te2 (byteOf y0 2) ^^^ te3 (byteOf y1 3))
    let y2 := x2 ^^^ k2
    let k3 := kq.q3 ^^^ (te0 (byteOf x3 0) ^^^ te1 (byteOf y0 1) ^^^ te2 (byteOf y1 2) ^^^ te3 (byteOf y2 3))
    ∃ t, exec .aesSingleRoundHeavy s = .next t ∧
      t.ctx.out.get 0 = k1 ++ k0 ∧ t.ctx.out.get 1 = k3 ++ k2 ∧
      t.ctx.kout.get 0 = k1 ++ k0 ∧ t.ctx.kout.get 1 = k3 ++ k2 ∧
      (∀ i < 2, t.ctx.out.isWritten i = true ∧ t.ctx.kout.isWritten i = true) ∧
      t.ctx.status.state = .done ∧
      t = { s with ctx := { s.ctx with
        out := t.ctx.out, kout := t.ctx.kout, status := t.ctx.status, uninit := t.ctx.uninit } }

/-- The four bytes of a word through the S-box, most significant first: `SubWord` of R136. -/
def sboxBytes (t : W32) : W32 :=
  sbox (t.extractLsb' 24 8) ++ sbox (t.extractLsb' 16 8) ++ sbox (t.extractLsb' 8 8) ++ sbox (t.extractLsb' 0 8)

/-- R137, R136: `AES_EXPAND_KEY` completes with all forty words of `RK`: the key's halves with their bytes reversed, then
the recurrence, `RotWord(t)` being `t[23:0] || t[31:24]`; it writes nothing else but `STATUS`. -/
def Obligations.ExpandKeyCompletesWithTheRecurrence : Prop :=
  ∀ s : State, ∃ t, exec .aesExpandKey s = .next t ∧
    (∀ i < 4,
      let k := s.ctx.key.get i
      t.ctx.rk.get (2 * i) =
        k.extractLsb' 0 8 ++ k.extractLsb' 8 8 ++ k.extractLsb' 16 8 ++ k.extractLsb' 24 8 ∧
      t.ctx.rk.get (2 * i + 1) =
        k.extractLsb' 32 8 ++ k.extractLsb' 40 8 ++ k.extractLsb' 48 8 ++ k.extractLsb' 56 8) ∧
    (∀ i, 8 ≤ i → i < 40 →
      let p := t.ctx.rk.get (i - 1)
      t.ctx.rk.get i = t.ctx.rk.get (i - 8) ^^^
        (if i % 8 = 0 then
          sboxBytes (p.extractLsb' 0 24 ++ p.extractLsb' 24 8) ^^^
            ([0x01#32, 0x02#32, 0x04#32, 0x08#32].getD (i / 8 - 1) 0#32) <<< 24
        else if i % 8 = 4 then sboxBytes p else p)) ∧
    (∀ i < 40, t.ctx.rk.isWritten i = true) ∧
    t.ctx.status.state = .done ∧
    t = { s with ctx := { s.ctx with rk := t.ctx.rk, status := t.ctx.status, uninit := t.ctx.uninit } }

/-- R138, R64, R43 (95_test_vectors.md V-EB7): `AES_ENCRYPT_BLOCK` completes with `OUT`, which counts as written, the
result of ten single rounds, round `r` with the key of the byte-swapped words `RK[4r..4r+3]`; nothing else but `STATUS`
is written. -/
def Obligations.EncryptBlockCompletesAsTenSingleRounds : Prop :=
  ∀ s : State, ∃ t, exec .aesEncryptBlock s = .next t ∧
    (t.ctx.out.get 0, t.ctx.out.get 1) =
      (List.range 10).foldl
        (fun b r => singleRound b.1 b.2
          (bswap32 (s.ctx.rk.get (4 * r + 1)) ++ bswap32 (s.ctx.rk.get (4 * r)))
          (bswap32 (s.ctx.rk.get (4 * r + 3)) ++ bswap32 (s.ctx.rk.get (4 * r + 2))))
        (s.ctx.inp.get 0, s.ctx.inp.get 1) ∧
    t.ctx.out.isWritten 0 = true ∧ t.ctx.out.isWritten 1 = true ∧
    t.ctx.status.state = .done ∧
    t = { s with ctx := { s.ctx with out := t.ctx.out, status := t.ctx.status, uninit := t.ctx.uninit } }

/-- R134 (95_test_vectors.md 2.3): the single round XORs its key last, word by word. -/
def Obligations.SingleRoundXorsItsKeyLast : Prop :=
  ∀ b0 b1 k0 k1 : W64,
    singleRound b0 b1 k0 k1 = ((singleRound b0 b1 0#64 0#64).1 ^^^ k0, (singleRound b0 b1 0#64 0#64).2 ^^^ k1)

/-! ### Random-math interpreter -/

/-- R180: `RM_EXEC` completes its start: `BUSY`, `CAP`, `CAUSE`, `FPC` and `PC` zero, whatever they held; nothing else
is written. -/
def Obligations.RunStartsAtSlotZero : Prop :=
  ∀ s : State, exec .rmExec s = .next { s with ctx := { s.ctx with
    pc := 0#7, status := { state := .busy, cap := false, cause := .none, fpc := 0#7 } } }

/-- R181, R182: an RM step whose word decodes to `i` is `exec i`; the fetch is a read of slot `PC`. Which context's RM step
comes next is `NextRm`, by log entries 4 and 14. -/
def Obligations.StepRunsTheDecodedInstruction : Prop :=
  ∀ (s t : State) (i : Instr), NextRm s t → t.ctx.pc.toNat ≤ 69 → decodeRm (t.ctx.pmem.get t.ctx.pc.toNat) = .ok i →
    step s = exec i { t with ctx := t.ctx.noteReads t.ctx.pc [{ space := .pmem, index := t.ctx.pc.toNat }] }

/-- R188. -/
def Obligations.MulCompletesWithTheLowProduct : Prop :=
  ∀ (d src : Byte) (s : State), d.toNat ≤ 3 → src.toNat ≤ 8 → ∃ t, exec (.mul d src) s = .next t ∧
    (t.ctx.r.get d.toNat).toNat = ((s.ctx.r.get d.toNat).toNat * (s.ctx.r.get src.toNat).toNat) % 2 ^ 32

/-- R189. -/
def Obligations.AddCompletesWithTheSumAndConstant : Prop :=
  ∀ (d src : Byte) (c : W32) (s : State), d.toNat ≤ 3 → src.toNat ≤ 8 → ∃ t, exec (.add d src c) s = .next t ∧
    (t.ctx.r.get d.toNat).toNat =
      ((s.ctx.r.get d.toNat).toNat + (s.ctx.r.get src.toNat).toNat + c.toNat) % 2 ^ 32

/-- R190. -/
def Obligations.SubCompletesWithTheDifference : Prop :=
  ∀ (d src : Byte) (s : State), d.toNat ≤ 3 → src.toNat ≤ 8 → ∃ t, exec (.sub d src) s = .next t ∧
    ((t.ctx.r.get d.toNat).toNat : Int) =
      (((s.ctx.r.get d.toNat).toNat : Int) - ((s.ctx.r.get src.toNat).toNat : Int)) % 2 ^ 32

/-- R191: bit `j` of the result is bit `j + n` of the operand, places counted modulo 32, for `n` the source modulo
32. -/
def Obligations.RorCompletesWithTheRotation : Prop :=
  ∀ (d src : Byte) (s : State), d.toNat ≤ 3 → src.toNat ≤ 8 → ∃ t, exec (.ror d src) s = .next t ∧
    ∀ j < 32, (t.ctx.r.get d.toNat).getLsbD j =
      (s.ctx.r.get d.toNat).getLsbD ((j + (s.ctx.r.get src.toNat).toNat % 32) % 32)

/-- R192: bit `j + n` of the result, places counted modulo 32, is bit `j` of the operand, for `n` the source modulo
32. -/
def Obligations.RolCompletesWithTheRotation : Prop :=
  ∀ (d src : Byte) (s : State), d.toNat ≤ 3 → src.toNat ≤ 8 → ∃ t, exec (.rol d src) s = .next t ∧
    ∀ j < 32, (t.ctx.r.get d.toNat).getLsbD ((j + (s.ctx.r.get src.toNat).toNat % 32) % 32) =
      (s.ctx.r.get d.toNat).getLsbD j

/-- R193. -/
def Obligations.XorCompletesBitwise : Prop :=
  ∀ (d src : Byte) (s : State), d.toNat ≤ 3 → src.toNat ≤ 8 → ∃ t, exec (.xor d src) s = .next t ∧
    ∀ j < 32, (t.ctx.r.get d.toNat).getLsbD j =
      Bool.xor ((s.ctx.r.get d.toNat).getLsbD j) ((s.ctx.r.get src.toNat).getLsbD j)

/-- R194: RET completes: the run is `DONE` with the slot in `FPC`; `PC` and every other register stay. -/
def Obligations.RetEndsTheRunAndChangesNothingElse : Prop :=
  ∀ s : State, exec .ret s = .next { s with ctx := { s.ctx with
    status := { s.ctx.status with state := .done, fpc := s.ctx.pc } } }

/-- R184, R195: the frame of the six ALU instructions: only `R[d]`, `PC`, `STATUS` and the model's fault record may
change, and `R[d]` counts as written. -/
def Obligations.AluInstructionWritesOneRegister : Prop :=
  ∀ (d src : Byte) (c : W32) (i : Instr) (s t : State), d.toNat ≤ 3 → src.toNat ≤ 8 →
    i ∈ [.mul d src, .add d src c, .sub d src, .ror d src, .rol d src, .xor d src] → exec i s = .next t →
    t = { s with ctx := { s.ctx with
      r := t.ctx.r, pc := t.ctx.pc, status := t.ctx.status, uninit := t.ctx.uninit } } ∧
    t.ctx.r.isWritten d.toNat = true ∧
    (∀ j, j ≠ d.toNat → t.ctx.r.get j = s.ctx.r.get j ∧ t.ctx.r.isWritten j = s.ctx.r.isWritten j) ∧
    (s.ctx.r.isWritten d.toNat = true → s.ctx.r.isWritten src.toNat = true → t.ctx.uninit = s.ctx.uninit)

/-- R185, R186: an ALU instruction advances `PC` by 1 with `STATUS` unchanged, except that where `PC` becomes 70 the run
ends `DONE` with `CAP` and `FPC = 70`. -/
def Obligations.AluInstructionAdvancesOrMeetsTheCap : Prop :=
  ∀ (d src : Byte) (c : W32) (i : Instr) (s t : State), d.toNat ≤ 3 → src.toNat ≤ 8 → s.ctx.pc.toNat ≤ 69 →
    i ∈ [.mul d src, .add d src c, .sub d src, .ror d src, .rol d src, .xor d src] → exec i s = .next t →
    t.ctx.pc.toNat = s.ctx.pc.toNat + 1 ∧
    (s.ctx.pc.toNat < 69 → t.ctx.status = s.ctx.status) ∧
    (s.ctx.pc.toNat = 69 → t.ctx.status = { s.ctx.status with state := .done, cap := true, fpc := 70#7 })

/-- R97, R98, R262, R264: `exec` of a term whose index byte is illegal raises the cause those rules name, DST before SRC,
and writes no register. That `exec` does so is the model's reading (log entry 8), for no word decodes to such a term. -/
def Obligations.IllegalIndexFaultsAndWritesNothing : Prop :=
  ∀ (d src : Byte) (c : W32) (i : Instr) (s : State),
    i ∈ [.mul d src, .add d src c, .sub d src, .ror d src, .rol d src, .xor d src] →
    (3 < d.toNat → exec i s = .next { s with ctx := { s.ctx with
      status := { state := .fault, cap := false, cause := .illegalDst, fpc := s.ctx.pc } } }) ∧
    (d.toNat ≤ 3 → 8 < src.toNat → exec i s = .next { s with ctx := { s.ctx with
      status := { state := .fault, cap := false, cause := .illegalSrc, fpc := s.ctx.pc } } })

/-- R181, R262: an RM step on a word that does not decode ends the run with the cause and the slot in `STATUS`;
`PC` is not advanced and no other register is written. Which context's RM step comes next is `NextRm`, by log entries 4
and 14. -/
def Obligations.IllegalWordFaultsPrecisely : Prop :=
  ∀ (s t : State) (c : Cause), NextRm s t → t.ctx.pc.toNat ≤ 69 →
    decodeRm (t.ctx.pmem.get t.ctx.pc.toNat) = .error c →
    ∃ u, step s = .next u ∧
      u.ctx.status = { state := .fault, cap := false, cause := c, fpc := t.ctx.pc } ∧
      u = { t with ctx := { t.ctx with status := u.ctx.status, uninit := u.ctx.uninit } } ∧
      (t.ctx.pmem.isWritten t.ctx.pc.toNat = true → u.ctx.uninit = t.ctx.uninit)

/-- The model's choice (DESIGN CHOICE, log entry 12): an RM step at a `PC` of 70 or more stops with `fetchRange`. R182 and
R186 say only that no run fetches there, and give no stop: `Context.Inv.busy_pc`, which every step keeps, excludes each
state that meets the hypotheses. -/
def Obligations.NoFetchBeyondTheCap : Prop :=
  ∀ s t : State, NextRm s t → 70 ≤ t.ctx.pc.toNat → step s = .fault .fetchRange

/-- R197: a run that no input interrupts ends in at most 70 steps, `DONE` or `FAULT`. That the block's steps with no input
are that run's is the model's choice (log entry 4). -/
def Obligations.EveryRunEndsWithinSeventySteps : Prop :=
  ∀ s : State, s.inputs = [] → s.ctx.busy = true → s.ctx.pc.toNat ≤ 69 →
    ∃ n t, n ≤ 70 ∧ Host.Core.run Sys2Proof.core n s = .next t ∧
      (t.ctx.status.state = .done ∨ t.ctx.status.state = .fault)

/-! ### Hash finalizer -/

/-- R230, R231, R233, R66, R241: `HF_FINALIZE` completes with the selector `ST[0][1:0]` in `SEL` and the digest of the
200 bytes by that selector's primitive in `DIGEST`, whatever the pools hold, and `DIGEST` counts as written (R43); no other
register of the context but `STATUS` is written. -/
def Obligations.FinalizeCompletesWithTheSelectedDigest : Prop :=
  ∀ s : State,
    let m : Vector Byte 200 := Vector.ofFn fun i => (s.ctx.st.get (i / 8)).extractLsb' (8 * (i % 8)) 8
    let k : BitVec 2 := (s.ctx.st.get 0).extractLsb' 0 2
    let d : Vector Byte 32 :=
      if k = 0#2 then Config.hash0 m else if k = 1#2 then Config.hash1 m
      else if k = 2#2 then Config.hash2 m else Config.hash3 m
    ∃ t, exec .hfFinalize s = .next t ∧ t.ctx.sel = k ∧
      (∀ i : Fin 32, (t.ctx.digest.get (i / 8)).extractLsb' (8 * (i % 8)) 8 = d[i]) ∧
      (∀ j < 4, t.ctx.digest.isWritten j = true) ∧
      t.ctx.status.state = .done ∧
      t = { s with pool := t.pool, leases := t.leases, ctx := { s.ctx with
        sel := t.ctx.sel, digest := t.ctx.digest, status := t.ctx.status, uninit := t.ctx.uninit } }

/-- R236, R239: `HF_FINALIZE` changes the selected pool alone; every unit that was there stays, leased as before, and a
new idle unit is made exactly where no unit was idle. -/
def Obligations.FinalizeReturnsTheUnitItLeases : Prop :=
  ∀ s t : State, exec .hfFinalize s = .next t →
    (∀ k : BitVec 2, k ≠ t.ctx.sel → t.poolOf k = s.poolOf k) ∧
    (∀ i < (s.poolOf t.ctx.sel).length,
      ((t.poolOf t.ctx.sel)[i]?).map HashUnit.leased = ((s.poolOf t.ctx.sel)[i]?).map HashUnit.leased) ∧
    ((∃ u ∈ s.poolOf t.ctx.sel, u.leased = false) →
      (t.poolOf t.ctx.sel).length = (s.poolOf t.ctx.sel).length) ∧
    ((∀ u ∈ s.poolOf t.ctx.sel, u.leased = true) →
      (t.poolOf t.ctx.sel).length = (s.poolOf t.ctx.sel).length + 1 ∧
      ((t.poolOf t.ctx.sel)[(s.poolOf t.ctx.sel).length]?).map HashUnit.leased = some false)

/-- R236, R238: the unit that a lease takes was idle or is new, it is leased afterwards, and no other unit
changes. -/
def Obligations.LeaseTakesNoLeasedUnit : Prop :=
  ∀ (p : Pool) (pick : Nat),
    ((p[(p.lease pick).1]?).map HashUnit.leased = some false ∨
      ((p.lease pick).1 = p.length ∧ ∀ u ∈ p, u.leased = true)) ∧
    (((p.lease pick).2[(p.lease pick).1]?).map HashUnit.leased = some true) ∧
    (∀ i, i ≠ (p.lease pick).1 → (p.lease pick).2[i]? = p[i]?)

/-! ### The whole block -/

/-- R31, R36 to R40, R182, R263, R239: the invariant of the block holds after reset. Its clause on leased
units is the model's reading (log entry 7). -/
def Obligations.ResetMeetsTheInvariant : Prop := State.reset.Inv

/-- R31, R36 to R40, R182, R263, R239: every step keeps the invariant: `PC` and `FPC` stay at most 70, a running context
is at a slot that is fetched, `CAUSE` is set exactly in `FAULT` and never shows `UNINIT_READ`, `CAP` is set only in
`DONE` at slot 70, and no unit is leased between steps, which is the model's reading of R74 and R230 (log entry 7). -/
def Obligations.EveryStepKeepsTheInvariant : Prop :=
  ∀ s t : State, s.Inv → step s = .next t → t.Inv

/-- R43, R263, R264: with a clean record, the spec's model-only fault is raised by an RM step exactly where the slot is
unwritten or the decoded instruction reads an unwritten register. That the step of the whole block stops is log entry 2. -/
def Obligations.UninitReadIsRaisedByAnRmStepExactly : Prop :=
  ∀ s t : State, s.clean = true → NextRm s t → t.ctx.pc.toNat ≤ 69 →
    (checkedStep s = .fault .uninitRead ↔
      t.ctx.pmem.isWritten t.ctx.pc.toNat = false ∨
      ∃ i, decodeRm (t.ctx.pmem.get t.ctx.pc.toNat) = .ok i ∧ ∃ x ∈ operandsOf i, t.ctx.isWritten x = false)

/-- R43, R263, R137 to R140, R230: with a clean record, the spec's model-only fault is raised by a command exactly where
one of its operand registers is unwritten. That the step of the whole block stops is log entry 2. -/
def Obligations.UninitReadIsRaisedByACommandExactly : Prop :=
  ∀ (s t : State) (c : Byte) (i : Instr), s.clean = true → NextCommand s c t → decodeCmd c = .ok i →
    (checkedStep s = .fault .uninitRead ↔ ∃ x ∈ operandsOf i, t.ctx.isWritten x = false)

/-- R43, R263: a run that reads only written registers does not depend on the values of unwritten ones: from two blocks
that differ only there, a step that the checked machine allows in one is taken by the other, and the results again
differ at most there. In particular it does not depend on the reset values of log entry 1. -/
def Obligations.CheckedStepsIgnoreUnwrittenValues : Prop :=
  ∀ s s' t : State, s.Agree s' → checkedStep s = .next t → ∃ t', checkedStep s' = .next t' ∧ t.Agree t'

/-- R75: the input of one context leaves every other context as it was. -/
def Obligations.StepOfOneContextLeavesTheOthers : Prop :=
  ∀ (s t : State) (k : Nat) (rest : List Input),
    ((∃ a, s.inputs = .host k a :: rest) ∨ s.inputs = .turn k :: rest ∨ (s.inputs = [] ∧ k = s.ctxId)) →
    step s = .next t →
    t.contexts.length = s.contexts.length ∧ ∀ j, j ≠ k → t.contexts[j]? = s.contexts[j]?

/-- R75, R241: what the input of one context makes of it depends on that context alone: not on the other contexts, not
on the pools, and not on which units the pools lease. -/
def Obligations.StepOfOneContextDependsOnItAlone : Prop :=
  ∀ (s s' t : State) (k : Nat) (m : Input) (rest rest' : List Input),
    ((∃ a, m = .host k a) ∨ m = .turn k) → s.inputs = m :: rest → s'.inputs = m :: rest' →
    s.contexts[k]? = s'.contexts[k]? → step s = .next t →
    ∃ t', step s' = .next t' ∧ t'.contexts[k]? = t.contexts[k]? ∧
      (∀ a, m = .host k a → s.hostData = s'.hostData → t'.hostData = t.hostData)

/-- R21, R23, R24, R29, R30, R32, R80: no command, instruction or turn writes `KEY`, `IN`, `RKEY`, `ST`, `PMEM` or
`R4` to `R8` of any context: only a host write to that space or reset does. A write that holds
because its context is `BUSY` is none: the RM step taken then is covered (R77). -/
def Obligations.OnlyHostWritesChangeOperandRegisters : Prop :=
  ∀ s t : State, step s = .next t →
    (∀ rest, s.inputs ≠ .reset :: rest) →
    (∀ k sp i b v rest c, s.inputs = .host k (.write sp i b v) :: rest → s.contexts[k]? = some c → c.busy = false →
      sp ∉ [Space.key, Space.inp, Space.rkey, Space.st, Space.pmem, Space.r]) →
    ∀ (k : Nat) (c c' : Context), s.contexts[k]? = some c → t.contexts[k]? = some c' →
      c'.key = c.key ∧ c'.inp = c.inp ∧ c'.rkey = c.rkey ∧ c'.st = c.st ∧ c'.pmem = c.pmem ∧
      ∀ j, 4 ≤ j → c'.r.get j = c.r.get j

/-- R302, R309: with no input and the moving context not `BUSY`, a step changes no context and passes the turn to the
next one by number, after the last to the first; nor does a turn given to a context that is not `BUSY` change a context,
which only gets the turn (R37; both are the model's choice of schedule, log entry 4). -/
def Obligations.IdleStepOnlyPassesTheTurn : Prop :=
  (∀ s : State, s.inputs = [] → s.ctx.busy = false →
    ∃ t, step s = .next t ∧ t.contexts = s.contexts ∧ t.ctxId = (s.ctxId + 1) % s.contexts.length ∧
      t.pool = s.pool ∧ t.inputs = [] ∧ t.hostData = s.hostData ∧ t.leases = s.leases) ∧
  (∀ (s : State) (k : Nat) (c : Context) (rest : List Input), s.inputs = .turn k :: rest → s.contexts[k]? = some c →
    c.busy = false →
    ∃ t, step s = .next t ∧ t.contexts = s.contexts ∧ t.ctxId = k ∧ t.pool = s.pool ∧ t.inputs = rest ∧
      t.hostData = s.hostData ∧ t.leases = s.leases)

/-! ### Host writes, the fault record, spellings -/

/-- R43, R61, R70, R74: the frame of a host write of a register that R44 gives the host to write: in the whole block that
register alone takes the value and counts as written; every other index of its space, every other space, `PC`, `SEL`,
`CMD`, `STATUS`, the record, the other contexts and the pools are as they were. -/
def Obligations.HostWriteChangesOneRegister : Prop :=
  ∀ (s t : State) (k i : Nat) (sp : Space) (v : W64) (rest : List Input),
    s.inputs = .host k (.write sp i sp.width v) :: rest → s.focus k = some t → t.ctx.busy = false →
    i < sp.entries →
    sp ∈ [Space.key, Space.rk, Space.inp, Space.rkey, Space.out, Space.r, Space.pmem, Space.st] →
    ∃ u, step s = .next u ∧ u = { t with inputs := rest, ctx := u.ctx } ∧
      u.ctx.hostValue { space := sp, index := i } = (v.setWidth sp.width).setWidth 64 ∧
      u.ctx.isWritten { space := sp, index := i } = true ∧
      (∀ x : RegRef, x ≠ { space := sp, index := i } →
        u.ctx.hostValue x = t.ctx.hostValue x ∧ u.ctx.isWritten x = t.ctx.isWritten x) ∧
      u.ctx.pc = t.ctx.pc ∧ u.ctx.sel = t.ctx.sel ∧ u.ctx.cmd = t.ctx.cmd ∧ u.ctx.status = t.ctx.status ∧
      u.ctx.uninit = t.ctx.uninit

/-- R263: no step clears or changes the fault record of a context, whatever the step is, reset included. -/
def Obligations.NoStepClearsTheFaultRecord : Prop :=
  ∀ (s t : State) (k : Nat) (c : Context) (u : UninitRead), step s = .next t → s.contexts[k]? = some c →
    c.uninit = some u → ∃ c', t.contexts[k]? = some c' ∧ c'.uninit = some u

/-- The spelling of the operands `Rd, Rs` (R106). -/
def operandSpelling (d s : Byte) : List Char :=
  [' ', 'R', Nat.digitChar d.toNat, ',', ' ', 'R', Nat.digitChar s.toNat]

/-- R106, R91: the spelling of each well-formed instruction, in either case, with ADD's constant in decimal or
hexadecimal digits, and of each command, assembles to it. The model's choices, log entry 13: that lines are lists of
characters, and that a command line, too, is read in either case (R106 says it of interpreter lines). -/
def Obligations.SpellingsAssembleToTheirInstruction : Prop :=
  (∀ d s : Byte, d.toNat ≤ 3 → s.toNat ≤ 8 →
    assemble (['M', 'U', 'L'] ++ operandSpelling d s) = some (.mul d s) ∧
    assemble (['S', 'U', 'B'] ++ operandSpelling d s) = some (.sub d s) ∧
    assemble (['R', 'O', 'R'] ++ operandSpelling d s) = some (.ror d s) ∧
    assemble (['R', 'O', 'L'] ++ operandSpelling d s) = some (.rol d s) ∧
    assemble (['X', 'O', 'R'] ++ operandSpelling d s) = some (.xor d s) ∧
    (∀ ds : List Nat, ds ≠ [] → (∀ n ∈ ds, n < 10) → Nat.ofDigits 10 ds.reverse < 2 ^ 32 →
      assemble (['A', 'D', 'D'] ++ operandSpelling d s ++ [',', ' '] ++ ds.map Nat.digitChar) =
        some (.add d s (BitVec.ofNat 32 (Nat.ofDigits 10 ds.reverse)))) ∧
    (∀ ds : List Nat, ds ≠ [] → (∀ n ∈ ds, n < 16) → Nat.ofDigits 16 ds.reverse < 2 ^ 32 →
      assemble (['A', 'D', 'D'] ++ operandSpelling d s ++ [',', ' ', '0', 'x'] ++ ds.map Nat.digitChar) =
        some (.add d s (BitVec.ofNat 32 (Nat.ofDigits 16 ds.reverse))))) ∧
  assemble ['R', 'E', 'T'] = some .ret ∧
  assembleCommand ['A', 'E', 'S', '_', 'E', 'X', 'P', 'A', 'N', 'D', '_', 'K', 'E', 'Y'] = some .aesExpandKey ∧
  assembleCommand ['A', 'E', 'S', '_', 'E', 'N', 'C', 'R', 'Y', 'P', 'T', '_', 'B', 'L', 'O', 'C', 'K'] =
    some .aesEncryptBlock ∧
  assembleCommand ['A', 'E', 'S', '_', 'S', 'I', 'N', 'G', 'L', 'E', '_', 'R', 'O', 'U', 'N', 'D'] =
    some .aesSingleRound ∧
  assembleCommand ['A', 'E', 'S', '_', 'S', 'I', 'N', 'G', 'L', 'E', '_', 'R', 'O', 'U', 'N', 'D', '_', 'H', 'E', 'A',
    'V', 'Y'] = some .aesSingleRoundHeavy ∧
  assembleCommand ['R', 'M', '_', 'E', 'X', 'E', 'C'] = some .rmExec ∧
  assembleCommand ['H', 'F', '_', 'F', 'I', 'N', 'A', 'L', 'I', 'Z', 'E'] = some .hfFinalize ∧
  (∀ l l' : List Char, l.map Char.toUpper = l'.map Char.toUpper →
    assemble l = assemble l' ∧ assembleCommand l = assembleCommand l')
end

