-- ==== Sys2Proof/Laws/State.lean ====
section
/-! SUPPORT. One lemma per field and update of the state, so that no proof unfolds a record update. -/

namespace Sys2Proof.Machine

variable (f : Context → Context) (s : State) (c : Context)

@[simp] theorem State.mapCtx_ctx : (s.mapCtx f).ctx = f s.ctx := rfl
@[simp] theorem State.mapCtx_lower : (s.mapCtx f).lower = s.lower := rfl
@[simp] theorem State.mapCtx_upper : (s.mapCtx f).upper = s.upper := rfl
@[simp] theorem State.mapCtx_pool : (s.mapCtx f).pool = s.pool := rfl
@[simp] theorem State.mapCtx_inputs : (s.mapCtx f).inputs = s.inputs := rfl
@[simp] theorem State.mapCtx_hostData : (s.mapCtx f).hostData = s.hostData := rfl
@[simp] theorem State.mapCtx_leases : (s.mapCtx f).leases = s.leases := rfl
@[simp] theorem State.mapCtx_ctxId : (s.mapCtx f).ctxId = s.ctxId := rfl

@[simp] theorem Context.start_status : c.start.status = .started := rfl
@[simp] theorem Context.start_key : c.start.key = c.key := rfl
@[simp] theorem Context.start_rk : c.start.rk = c.rk := rfl
@[simp] theorem Context.start_inp : c.start.inp = c.inp := rfl
@[simp] theorem Context.start_rkey : c.start.rkey = c.rkey := rfl
@[simp] theorem Context.start_out : c.start.out = c.out := rfl
@[simp] theorem Context.start_kout : c.start.kout = c.kout := rfl
@[simp] theorem Context.start_r : c.start.r = c.r := rfl
@[simp] theorem Context.start_pmem : c.start.pmem = c.pmem := rfl
@[simp] theorem Context.start_pc : c.start.pc = c.pc := rfl
@[simp] theorem Context.start_st : c.start.st = c.st := rfl
@[simp] theorem Context.start_sel : c.start.sel = c.sel := rfl
@[simp] theorem Context.start_digest : c.start.digest = c.digest := rfl
@[simp] theorem Context.start_cmd : c.start.cmd = c.cmd := rfl
@[simp] theorem Context.start_uninit : c.start.uninit = c.uninit := rfl

@[simp] theorem Context.finish_status : c.finish.status = { c.status with state := .done } := rfl
@[simp] theorem Context.finish_key : c.finish.key = c.key := rfl
@[simp] theorem Context.finish_rk : c.finish.rk = c.rk := rfl
@[simp] theorem Context.finish_inp : c.finish.inp = c.inp := rfl
@[simp] theorem Context.finish_rkey : c.finish.rkey = c.rkey := rfl
@[simp] theorem Context.finish_out : c.finish.out = c.out := rfl
@[simp] theorem Context.finish_kout : c.finish.kout = c.kout := rfl
@[simp] theorem Context.finish_r : c.finish.r = c.r := rfl
@[simp] theorem Context.finish_pmem : c.finish.pmem = c.pmem := rfl
@[simp] theorem Context.finish_pc : c.finish.pc = c.pc := rfl
@[simp] theorem Context.finish_st : c.finish.st = c.st := rfl
@[simp] theorem Context.finish_sel : c.finish.sel = c.sel := rfl
@[simp] theorem Context.finish_digest : c.finish.digest = c.digest := rfl
@[simp] theorem Context.finish_cmd : c.finish.cmd = c.cmd := rfl
@[simp] theorem Context.finish_uninit : c.finish.uninit = c.uninit := rfl

/-- A block whose moving context is replaced by itself. -/
theorem State.with_ctx_self : { s with ctx := s.ctx } = s := rfl

end Sys2Proof.Machine
end

