-- ==== Sys2Proof/Laws/Ops.lean ====
section
/-! SUPPORT. What each shared operation can do: the banks, the fault record, faults, the choice of a context, reset. -/

namespace Sys2Proof.Machine

section Banks

variable {w n : Nat} (b : RegBank w n) (i j : Nat) (v : BitVec w)

theorem RegBank.get_set : (b.set i v).get j = if i = j ∧ i < n then v else b.get j := by
  simp only [RegBank.get, RegBank.set, Vector.getElem?_setIfInBounds]
  by_cases h : i = j
  · subst h
    by_cases hn : i < n <;> simp [hn]
  · simp [h]

theorem RegBank.isWritten_set : (b.set i v).isWritten j = if i = j ∧ i < n then true else b.isWritten j := by
  simp only [RegBank.isWritten, RegBank.set, Vector.getElem?_setIfInBounds]
  by_cases h : i = j
  · subst h
    by_cases hn : i < n <;> simp [hn]
  · simp [h]

theorem RegBank.get_set_self (h : i < n) : (b.set i v).get i = v := by simp [RegBank.get_set, h]

theorem RegBank.get_set_ne (h : i ≠ j) : (b.set i v).get j = b.get j := by simp [RegBank.get_set, h]

theorem RegBank.isWritten_set_self (h : i < n) : (b.set i v).isWritten i = true := by
  simp [RegBank.isWritten_set, h]

theorem RegBank.isWritten_set_ne (h : i ≠ j) : (b.set i v).isWritten j = b.isWritten j := by
  simp [RegBank.isWritten_set, h]

/-- An index above the bank reads as nothing. -/
theorem RegBank.get_of_le (h : n ≤ i) : b.get i = 0#w := by
  simp [RegBank.get, Vector.getElem?_eq_none h]

theorem RegBank.isWritten_of_le (h : n ≤ i) : b.isWritten i = false := by
  simp [RegBank.isWritten, Vector.getElem?_eq_none h]

theorem RegBank.get_filled (f : Nat → BitVec w) (h : i < n) : (RegBank.filled n f).get i = f i := by
  simp [RegBank.get, RegBank.filled, h]

theorem RegBank.isWritten_filled (f : Nat → BitVec w) (h : i < n) : (RegBank.filled n f).isWritten i = true := by
  simp [RegBank.isWritten, RegBank.filled, h]

@[simp] theorem RegBank.get_pair_zero (p : BitVec w × BitVec w) : (RegBank.pair p).get 0 = p.1 := by
  simp [RegBank.pair, RegBank.get_filled]

@[simp] theorem RegBank.get_pair_one (p : BitVec w × BitVec w) : (RegBank.pair p).get 1 = p.2 := by
  simp [RegBank.pair, RegBank.get_filled]

@[simp] theorem RegBank.get_reset : (RegBank.reset w n).get i = 0#w := by
  by_cases h : i < n
  · simp [RegBank.get, RegBank.reset, h]
  · exact RegBank.get_of_le _ _ (Nat.le_of_not_lt h)

@[simp] theorem RegBank.isWritten_reset : (RegBank.reset w n).isWritten i = false := by
  by_cases h : i < n
  · simp [RegBank.isWritten, RegBank.reset, h]
  · exact RegBank.isWritten_of_le _ _ (Nat.le_of_not_lt h)

end Banks

section Record

variable (slot : BitVec 7) (xs : List RegRef) (c : Context)

/-- Noting reads changes the fault record alone. -/
theorem Context.noteReads_eq : c.noteReads slot xs = { c with uninit := (c.noteReads slot xs).uninit } := by
  unfold Context.noteReads
  split
  · rfl
  · rfl

@[simp] theorem Context.noteReads_key : (c.noteReads slot xs).key = c.key := by rw [Context.noteReads_eq]
@[simp] theorem Context.noteReads_rk : (c.noteReads slot xs).rk = c.rk := by rw [Context.noteReads_eq]
@[simp] theorem Context.noteReads_inp : (c.noteReads slot xs).inp = c.inp := by rw [Context.noteReads_eq]
@[simp] theorem Context.noteReads_rkey : (c.noteReads slot xs).rkey = c.rkey := by rw [Context.noteReads_eq]
@[simp] theorem Context.noteReads_out : (c.noteReads slot xs).out = c.out := by rw [Context.noteReads_eq]
@[simp] theorem Context.noteReads_kout : (c.noteReads slot xs).kout = c.kout := by rw [Context.noteReads_eq]
@[simp] theorem Context.noteReads_r : (c.noteReads slot xs).r = c.r := by rw [Context.noteReads_eq]
@[simp] theorem Context.noteReads_pmem : (c.noteReads slot xs).pmem = c.pmem := by rw [Context.noteReads_eq]
@[simp] theorem Context.noteReads_pc : (c.noteReads slot xs).pc = c.pc := by rw [Context.noteReads_eq]
@[simp] theorem Context.noteReads_st : (c.noteReads slot xs).st = c.st := by rw [Context.noteReads_eq]
@[simp] theorem Context.noteReads_sel : (c.noteReads slot xs).sel = c.sel := by rw [Context.noteReads_eq]
@[simp] theorem Context.noteReads_digest : (c.noteReads slot xs).digest = c.digest := by rw [Context.noteReads_eq]
@[simp] theorem Context.noteReads_cmd : (c.noteReads slot xs).cmd = c.cmd := by rw [Context.noteReads_eq]
@[simp] theorem Context.noteReads_status : (c.noteReads slot xs).status = c.status := by rw [Context.noteReads_eq]

/-- Reads of written registers leave the context as it was (R43). -/
theorem Context.noteReads_of_written (h : ∀ x ∈ xs, c.isWritten x = true) : c.noteReads slot xs = c := by
  have hf : xs.find? (fun x => !c.isWritten x) = none := by simpa using h
  unfold Context.noteReads
  split
  · rfl
  · next hu => rw [hf, Option.map_none, ← hu]

/-- The record stays clear exactly where every register read is written (R263). -/
theorem Context.noteReads_uninit_none :
    (c.noteReads slot xs).uninit = none ↔ c.uninit = none ∧ ∀ x ∈ xs, c.isWritten x = true := by
  cases hu : c.uninit <;> simp [Context.noteReads, hu]

/-- A record once set is never cleared or changed (R263). -/
theorem Context.noteReads_uninit_of_some {u : UninitRead} (h : c.uninit = some u) :
    (c.noteReads slot xs).uninit = some u := by
  simp [Context.noteReads, h]

end Record

/-- Whether a register is written does not depend on the control state. -/
@[simp] theorem Context.isWritten_start (c : Context) (x : RegRef) : c.start.isWritten x = c.isWritten x := rfl

@[simp] theorem Context.isWritten_noteReads (slot : BitVec 7) (xs : List RegRef) (c : Context) (x : RegRef) :
    (c.noteReads slot xs).isWritten x = c.isWritten x := by rw [Context.noteReads_eq]; rfl

@[simp] theorem Context.busy_noteReads (slot : BitVec 7) (xs : List RegRef) (c : Context) :
    (c.noteReads slot xs).busy = c.busy := by simp [Context.busy]

section Commands

variable {xs : List RegRef} {effect : Context → Context} {s t : State}

/-- What a one-step command answers: the moving context alone changes (R74). -/
theorem runCommand_next (h : runCommand xs effect s = .next t) :
    t = { s with ctx := (effect (s.ctx.start.noteReads 0#7 xs)).finish } := by
  simp only [runCommand, Host.Outcome.next.injEq] at h
  exact h.symm

/-- The record after a one-step command is that after its operands are read (R263). -/
theorem runCommand_uninit (he : ∀ c, (effect c).uninit = c.uninit) (h : runCommand xs effect s = .next t) :
    t.ctx.uninit = (s.ctx.start.noteReads 0#7 xs).uninit := by
  rw [runCommand_next h]
  exact he _

end Commands

section Contexts

variable (s : State)

@[simp] theorem State.contexts_length : s.contexts.length = s.lower.length + 1 + s.upper.length := by
  simp [State.contexts]; omega

/-- The moving context is the one of its number. -/
@[simp] theorem State.contexts_ctxId : s.contexts[s.ctxId]? = some s.ctx := by
  simp [State.contexts, State.ctxId]

/-- Replacing the moving context replaces that entry alone. -/
theorem State.contexts_with_ctx (c : Context) :
    ({ s with ctx := c } : State).contexts = s.contexts.set s.ctxId c := by
  simp [State.contexts, State.ctxId]

/-- Contexts depend on nothing but the three fields that hold them. -/
theorem State.contexts_congr {s t : State} (hl : t.lower = s.lower) (hc : t.ctx = s.ctx) (hu : t.upper = s.upper) :
    t.contexts = s.contexts := by
  simp [State.contexts, hl, hc, hu]

/-- What choosing a context does: the same contexts, the chosen one moving, all else as it was. -/
theorem State.focus_spec {s t : State} {k : Nat} (h : s.focus k = some t) :
    t.contexts = s.contexts ∧ t.ctxId = k ∧ s.contexts[k]? = some t.ctx ∧ t.pool = s.pool ∧ t.inputs = s.inputs ∧
      t.hostData = s.hostData ∧ t.leases = s.leases := by
  unfold State.focus at h
  split at h
  · next hk =>
    cases h
    subst hk
    simp
  · split at h
    · next c u hd =>
      cases h
      have hk : k < s.contexts.length := by
        by_contra hk
        simp [List.drop_eq_nil_of_le (Nat.le_of_not_lt hk)] at hd
      have hc : s.contexts = s.contexts.take k ++ c :: u := by
        rw [← hd, List.take_append_drop]
      have hlen : (s.contexts.take k).length = k := by simp only [List.length_take]; omega
      refine ⟨?_, ?_, ?_, rfl, rfl, rfl, rfl⟩
      · simpa [State.contexts] using hc.symm
      · simp only [State.ctxId, List.length_reverse, hlen]
      · have := List.getElem?_drop (xs := s.contexts) (i := k) (j := 0)
        rw [hd] at this
        simpa using this.symm
    · cases h

/-- A context can be chosen exactly where its number is below `N_CTX` (R272). -/
theorem State.focus_isSome (k : Nat) : (s.focus k).isSome = decide (k < s.contexts.length) := by
  unfold State.focus
  split
  · next hk =>
    subst hk
    simp [State.ctxId]
    omega
  · split
    · next c u hd =>
      have hk : k < s.contexts.length := by
        by_contra hk
        simp [List.drop_eq_nil_of_le (Nat.le_of_not_lt hk)] at hd
      simp only [Option.isSome_some, hk, decide_true]
    · next hd =>
      have := List.drop_eq_nil_iff.mp hd
      simp only [Option.isSome_none, Bool.false_eq, decide_eq_false_iff_not]
      omega

@[simp] theorem State.focus_self : s.focus s.ctxId = some s := by simp [State.focus]

end Contexts

end Sys2Proof.Machine
end

