-- ==== Sys2Proof/Laws/Aesu.lean ====
section
/-! SUPPORT. The bits and bytes of the word views, and the length and words of the key schedule. -/

namespace Sys2Proof.Machine

/-- The bits of a byte of a word. -/
theorem getLsbD_byteOf {n : Nat} (v : BitVec n) (i j : Nat) :
    (byteOf v i).getLsbD j = (decide (j < 8) && v.getLsbD (8 * i + j)) := by
  simp [byteOf]

/-- The bits of a little-endian word. -/
theorem getLsbD_wordLe (f : Nat → Byte) (j : Nat) (h : j < 64) :
    (wordLe f).getLsbD j = (f (j / 8)).getLsbD (j % 8) := by
  have hw : (wordLe f).getLsbD j =
      (f 7 ++ f 6 ++ f 5 ++ f 4 ++ f 3 ++ f 2 ++ f 1 ++ f 0 :
        BitVec (8 + 8 + 8 + 8 + 8 + 8 + 8 + 8)).getLsbD j := rfl
  have hj : j / 8 = 0 ∨ j / 8 = 1 ∨ j / 8 = 2 ∨ j / 8 = 3 ∨ j / 8 = 4 ∨ j / 8 = 5 ∨ j / 8 = 6 ∨ j / 8 = 7 := by
    omega
  rw [hw]
  simp only [BitVec.getLsbD_append, Nat.sub_sub]
  rcases hj with hj | hj | hj | hj | hj | hj | hj | hj <;> rw [hj] <;> repeat' split
  all_goals first | omega | (congr 1; omega)

/-- Byte `i` of a little-endian word (R62). -/
theorem byteOf_wordLe (f : Nat → Byte) (i : Nat) (h : i < 8) : byteOf (wordLe f) i = f i := by
  apply BitVec.eq_of_getLsbD_eq
  intro j hj
  rw [getLsbD_byteOf, getLsbD_wordLe _ _ (by omega)]
  simp [hj, show (8 * i + j) / 8 = i by omega, show (8 * i + j) % 8 = j by omega]

/-- A word is the little-endian word of its bytes (R67). -/
theorem wordLe_byteOf (w : W64) : wordLe (byteOf w) = w := by
  apply BitVec.eq_of_getLsbD_eq
  intro j hj
  rw [getLsbD_wordLe _ _ hj, getLsbD_byteOf]
  simp [show j % 8 < 8 by omega, Nat.div_add_mod]

/-- A little-endian word depends on bytes 0 to 7 alone. -/
theorem wordLe_congr {f g : Nat → Byte} (h : ∀ i < 8, f i = g i) : wordLe f = wordLe g := by
  simp [wordLe, h]

/-- The bits of a 32-bit word joined from four bytes, the last lowest. -/
theorem getLsbD_append4 (a b c d : Byte) (j : Nat) (h : j < 32) :
    (a ++ b ++ c ++ d : W32).getLsbD j =
      if j < 8 then d.getLsbD j else if j < 16 then c.getLsbD (j - 8) else if j < 24 then b.getLsbD (j - 16)
      else a.getLsbD (j - 24) := by
  have hw : (a ++ b ++ c ++ d : W32).getLsbD j = (a ++ b ++ c ++ d : BitVec (8 + 8 + 8 + 8)).getLsbD j := rfl
  rw [hw]
  simp only [BitVec.getLsbD_append, Nat.sub_sub]
  repeat' split
  all_goals first | rfl | omega

/-- Byte `i` of a 32-bit word joined from four bytes. -/
theorem byteOf_append4 (a b c d : Byte) (i : Nat) (h : i < 4) :
    byteOf (a ++ b ++ c ++ d : W32) i = [d, c, b, a].getD i 0#8 := by
  apply BitVec.eq_of_getLsbD_eq
  intro j hj
  rw [getLsbD_byteOf, getLsbD_append4 _ _ _ _ _ (by omega)]
  obtain rfl | rfl | rfl | rfl : i = 0 ∨ i = 1 ∨ i = 2 ∨ i = 3 := by omega
  all_goals
    repeat' split
    all_goals first | omega | simp [hj]

/-- Two 32-bit words with the same four bytes are equal. -/
theorem eq_of_byteOf_eq {v w : W32} (h : ∀ i < 4, byteOf v i = byteOf w i) : v = w := by
  apply BitVec.eq_of_getLsbD_eq
  intro j hj
  have := congrArg (fun b => BitVec.getLsbD b (j % 8)) (h (j / 8) (by omega))
  simp only [getLsbD_byteOf, Nat.div_add_mod, show j % 8 < 8 by omega, decide_true, Bool.true_and] at this
  exact this

@[simp] theorem byteOf_xor {n : Nat} (v w : BitVec n) (i : Nat) : byteOf (v ^^^ w) i = byteOf v i ^^^ byteOf w i := by
  apply BitVec.eq_of_getLsbD_eq
  intro j hj
  simp [byteOf, hj]

/-- Byte `i` of a block, in range. -/
theorem Block.at_ofFn (f : Fin 16 → Byte) (i : Nat) (h : i < 16) : Block.at (Vector.ofFn f) i = f ⟨i, h⟩ := by
  simp [Block.at, h]

/-- Bytes of the block view (R11). -/
theorem b16_at (b0 b1 : W64) (i : Nat) (h : i < 16) :
    (b16 b0 b1).at i = if i < 8 then byteOf b0 i else byteOf b1 (i - 8) := Block.at_ofFn _ i h

/-- Two blocks with the same bytes are equal. -/
theorem Block.ext_at {s t : Block} (h : ∀ i < 16, s.at i = t.at i) : s = t := by
  apply Vector.ext
  intro i hi
  have := h i hi
  simpa [Block.at, hi] using this

/-- Bytes of a full round (R134). -/
theorem aesenc_at (s k : Block) (c r : Nat) (hc : c < 4) (hr : r < 4) :
    (aesenc s k).at (4 * c + r) =
      mixRow (sbox (s.at (4 * (c % 4)))) (sbox (s.at (4 * ((c + 1) % 4) + 1))) (sbox (s.at (4 * ((c + 2) % 4) + 2)))
        (sbox (s.at (4 * ((c + 3) % 4) + 3))) r ^^^ k.at (4 * c + r) := by
  have h1 : (4 * c + r) / 4 = c := by omega
  have h2 : (4 * c + r) % 4 = r := by omega
  have hm : ∀ j, j < 4 → (shiftRows (subBytes s)).at (4 * c + j) = sbox (s.at (4 * ((c + j) % 4) + j)) := by
    intro j hj
    rw [shiftRows, Block.at_ofFn _ _ (by omega)]
    simp only [show (4 * c + j) / 4 = c by omega, show (4 * c + j) % 4 = j by omega]
    rw [subBytes, Block.at_ofFn _ _ (by omega)]
  rw [aesenc, addRoundKey, Block.at_ofFn _ _ (by omega), mixColumns, Block.at_ofFn _ _ (by omega)]
  simp only [h1, h2]
  rw [hm 1 (by omega), hm 2 (by omega), hm 3 (by omega)]
  have := hm 0 (by omega)
  simp only [Nat.add_zero] at this
  rw [this]

/-- One turn of the schedule loop adds one word. -/
@[simp] theorem scheduleNext_length (w : List W32) : (scheduleNext w).length = w.length + 1 := by simp [scheduleNext]

@[simp] theorem scheduleGrow_length (n : Nat) (w : List W32) : (scheduleGrow n w).length = w.length + n := by
  induction n generalizing w with
  | zero => rfl
  | succ n ih => rw [scheduleGrow, ih, scheduleNext_length]; omega

/-- A word of the schedule once made is never changed. -/
theorem scheduleGrow_getD_of_lt (n : Nat) (w : List W32) (i : Nat) (h : i < w.length) :
    (scheduleGrow n w).getD i 0#32 = w.getD i 0#32 := by
  induction n generalizing w with
  | zero => rfl
  | succ n ih =>
    rw [scheduleGrow, ih _ (by rw [scheduleNext_length]; omega), scheduleNext, List.getD_append _ _ _ _ h]

@[simp] theorem keyHalves_length (key : Nat → W64) : (keyHalves key).length = 8 := by simp [keyHalves]

/-- The recurrence of R137, for every word after the first ones. -/
theorem scheduleGrow_getD (n : Nat) (w : List W32) (i : Nat) (h8 : 8 ≤ w.length) (h : w.length ≤ i)
    (hi : i < w.length + n) :
    (scheduleGrow n w).getD i 0#32 =
      (scheduleGrow n w).getD (i - 8) 0#32 ^^^ scheduleTerm i ((scheduleGrow n w).getD (i - 1) 0#32) := by
  induction n generalizing w with
  | zero => omega
  | succ n ih =>
    rw [scheduleGrow]
    by_cases he : w.length = i
    · subst he
      rw [scheduleGrow_getD_of_lt _ _ _ (by simp), scheduleGrow_getD_of_lt _ _ (w.length - 8) (by simp),
        scheduleGrow_getD_of_lt _ _ (w.length - 1) (by simp)]
      rw [scheduleNext, List.getD_append_right _ _ _ _ (le_refl _), List.getD_append _ _ _ (w.length - 8) (by omega),
        List.getD_append _ _ _ (w.length - 1) (by omega)]
      simp
    · exact ih _ (by rw [scheduleNext_length]; omega) (by rw [scheduleNext_length]; omega)
        (by rw [scheduleNext_length]; omega)

end Sys2Proof.Machine
end

