-- ==== Sys2Proof/Laws/Hfu.lean ====
section
/-! SUPPORT. The pools: what a lease takes, and that the digest does not depend on them (R236 to R241). -/

namespace Sys2Proof.Machine

theorem Pool.mem_idle {p : Pool} {j : Nat} : j ∈ p.idle ↔ ∃ u, p[j]? = some u ∧ u.leased = false := by
  simp only [Pool.idle, List.mem_filter, List.mem_range]
  constructor
  · rintro ⟨_, h⟩
    cases hu : p[j]? with
    | none => simp [hu] at h
    | some u => exact ⟨u, rfl, by simpa [hu] using h⟩
  · rintro ⟨u, hu, hl⟩
    exact ⟨(List.getElem?_eq_some_iff.mp hu).1, by simp [hu, hl]⟩

/-- A lease takes an idle unit and marks it, or, where none is idle, makes a new one (R236). -/
theorem Pool.lease_cases (p : Pool) (pick : Nat) :
    (∃ u, p[(p.lease pick).1]? = some u ∧ u.leased = false ∧
      (p.lease pick).2 = p.modify (p.lease pick).1 fun u => { u with leased := true }) ∨
    ((∀ u ∈ p, u.leased = true) ∧ p.lease pick = (p.length, p ++ [{ leased := true, fed := [] }])) := by
  cases hi : p.idle with
  | nil =>
    refine .inr ⟨?_, by simp only [Pool.lease, hi]⟩
    intro u hu
    obtain ⟨j, hj⟩ := List.getElem?_of_mem hu
    by_contra hl
    have : j ∈ p.idle := Pool.mem_idle.mpr ⟨u, hj, by simpa using hl⟩
    simp [hi] at this
  | cons i is =>
    left
    have hlt : pick % (i :: is).length < (i :: is).length := Nat.mod_lt _ (by simp)
    have hj : (p.lease pick).1 = (i :: is).getD (pick % (i :: is).length) i := by simp only [Pool.lease, hi]
    have hmem : (p.lease pick).1 ∈ p.idle := by
      rw [hj, hi, List.getD_eq_getElem _ _ hlt]
      exact List.getElem_mem hlt
    obtain ⟨u, hu, hl⟩ := Pool.mem_idle.mp hmem
    exact ⟨u, hu, hl, by simp only [Pool.lease, hi]⟩

/-- The leased unit is in the pool and is leased. -/
theorem Pool.lease_unit (p : Pool) (pick : Nat) :
    ∃ u, (p.lease pick).2[(p.lease pick).1]? = some u ∧ u.leased = true := by
  obtain ⟨u, hu, _, h⟩ | ⟨_, h⟩ := p.lease_cases pick
  · exact ⟨{ u with leased := true }, by rw [h]; simp [hu]⟩
  · exact ⟨{ leased := true, fed := [] }, by rw [h]; simp⟩

/-- The digest is the primitive's function of the bytes fed, whatever the pool holds and whichever unit is leased
(R237, R241). -/
theorem finalizeIn_digest (k : BitVec 2) (pick : Nat) (m : Vector Byte 200) (p : Pool) :
    (finalizeIn k pick m.toList p).1 = hashOf k m := by
  obtain ⟨u, hu, _⟩ := p.lease_unit pick
  simp only [finalizeIn, Pool.digest, Pool.resetUnit, Pool.feed]
  refine congrArg (hashOf k) (Vector.ext ?_)
  intro i hi
  simp [hu]

/-- The pool afterwards: the unit leased holds the bytes fed and is idle; the others are as they were (R239). -/
theorem finalizeIn_pool (k : BitVec 2) (pick : Nat) (m : List Byte) (p : Pool) :
    (∃ j u, p[j]? = some u ∧ u.leased = false ∧
      (finalizeIn k pick m p).2 = p.set j { leased := false, fed := m }) ∨
    ((∀ u ∈ p, u.leased = true) ∧ (finalizeIn k pick m p).2 = p ++ [{ leased := false, fed := m }]) := by
  obtain ⟨u, hu, hl, h⟩ | ⟨ha, h⟩ := p.lease_cases pick
  · refine .inl ⟨_, u, hu, hl, ?_⟩
    simp only [finalizeIn, Pool.resetUnit, Pool.feed, Pool.giveBack, h]
    apply List.ext_getElem?
    intro i
    by_cases hi : (p.lease pick).1 = i
    · subst hi
      simp [(List.getElem?_eq_some_iff.mp hu).1]
    · simp [hi]
  · refine .inr ⟨ha, ?_⟩
    simp only [finalizeIn, Pool.resetUnit, Pool.feed, Pool.giveBack, h]
    apply List.ext_getElem?
    intro i
    by_cases hi : p.length = i
    · subst hi
      simp
    · simp [List.getElem?_append, hi]
      by_cases hlt : i < p.length
      · simp [hlt]
      · simp [hlt, show i - p.length ≠ 0 by omega]

/-- The parts of `HF_FINALIZE` (R230). -/
theorem execHfFinalize_eq (s : State) :
    execHfFinalize s = .next
      { s with
        ctx :=
          ({ (s.ctx.start.noteReads 0#7 (regs .st 25)) with
            sel := (s.ctx.st.get 0).extractLsb' 0 2
            digest := .filled 4 (digestWord
              (hashOf ((s.ctx.st.get 0).extractLsb' 0 2) (stateBytes s.ctx.st.get))) } : Context).finish
        pool := s.pool.setIfInBounds ((s.ctx.st.get 0).extractLsb' 0 2 : BitVec 2).toNat
          (finalizeIn ((s.ctx.st.get 0).extractLsb' 0 2) (Config.leasePick s.leases) (stateBytes s.ctx.st.get).toList
            (s.poolOf ((s.ctx.st.get 0).extractLsb' 0 2))).2
        leases := s.leases + 1 } := by
  simp only [execHfFinalize, runCommand, State.mapCtx, ← finalizeIn_digest _ (Config.leasePick s.leases) _
    (s.poolOf ((s.ctx.st.get 0).extractLsb' 0 2))]

end Sys2Proof.Machine
end

