-- ==== Sys2Proof/Laws/Decode.lean ====
section
/-! SUPPORT. What decoding can answer, and the fields of an encoded word. -/

namespace Sys2Proof

/-- The bits of an assembled word (R95). -/
theorem getLsbD_rmWord (op d s : Byte) (c : W32) (i : Nat) :
    (rmWord op d s c).getLsbD i =
      if i < 8 then op.getLsbD i else if i < 16 then d.getLsbD (i - 8) else if i < 24 then s.getLsbD (i - 16)
      else if i < 32 then false else c.getLsbD (i - 32) := by
  have h : (rmWord op d s c).getLsbD i = (c ++ 0#8 ++ s ++ d ++ op : BitVec (32 + 8 + 8 + 8 + 8)).getLsbD i := rfl
  rw [h]
  simp only [BitVec.getLsbD_append]
  repeat' split
  all_goals first | rfl | omega | skip
  all_goals simp [Nat.sub_sub]

@[simp] theorem opField_rmWord (op d s : Byte) (c : W32) : opField (rmWord op d s c) = op := by
  apply BitVec.eq_of_getLsbD_eq
  intro i hi
  simp [opField, getLsbD_rmWord, hi]

@[simp] theorem dstField_rmWord (op d s : Byte) (c : W32) : dstField (rmWord op d s c) = d := by
  apply BitVec.eq_of_getLsbD_eq
  intro i hi
  have h : 8 + i < 16 := by omega
  simp [dstField, getLsbD_rmWord, hi, h]

@[simp] theorem srcField_rmWord (op d s : Byte) (c : W32) : srcField (rmWord op d s c) = s := by
  apply BitVec.eq_of_getLsbD_eq
  intro i hi
  have h : ¬ 16 + i < 8 := by omega
  have h' : 16 + i < 24 := by omega
  simp [srcField, getLsbD_rmWord, hi, h, h']

@[simp] theorem rsvField_rmWord (op d s : Byte) (c : W32) : rsvField (rmWord op d s c) = 0#8 := by
  apply BitVec.eq_of_getLsbD_eq
  intro i hi
  have h : ¬ 24 + i < 8 := by omega
  have h' : ¬ 24 + i < 16 := by omega
  have h'' : 24 + i < 32 := by omega
  simp [rsvField, getLsbD_rmWord, hi, h, h', h'']

@[simp] theorem constField_rmWord (op d s : Byte) (c : W32) : constField (rmWord op d s c) = c := by
  apply BitVec.eq_of_getLsbD_eq
  intro i hi
  have h : ¬ 32 + i < 8 := by omega
  have h' : ¬ 32 + i < 16 := by omega
  have h'' : ¬ 32 + i < 24 := by omega
  simp [constField, getLsbD_rmWord, hi, h, h', h'']

/-- The operand checks answer `ok` exactly for a zero RSV and legal indexes. -/
theorem checkOperands_ok {w : W64} {i j : Instr} :
    checkOperands w i = .ok j ↔
      j = i ∧ rsvField w = 0#8 ∧ dstLegal (dstField w) = true ∧ srcLegal (srcField w) = true := by
  unfold checkOperands
  split
  · next h => simp_all
  · split
    · next h => simp_all
    · split
      · next h => simp_all
      · next h1 h2 h3 =>
        simp only [Bool.not_eq_false] at h2 h3
        simp [not_not.mp h1, h2, h3, eq_comm]

/-- The causes the operand checks can name. -/
theorem checkOperands_error {w : W64} {i : Instr} {c : Cause} (h : checkOperands w i = .error c) :
    c = .reservedNonzero ∨ c = .illegalDst ∨ c = .illegalSrc := by
  unfold checkOperands at h
  split at h
  · cases h; simp
  · split at h
    · cases h; simp
    · split at h
      · cases h; simp
      · cases h

/-- The causes that decoding a word can name (R261). -/
theorem decodeRm_error {w : W64} {c : Cause} (h : decodeRm w = .error c) :
    c = .illegalOpcode ∨ c = .reservedNonzero ∨ c = .illegalDst ∨ c = .illegalSrc := by
  unfold decodeRm at h
  split at h <;> first | exact .inr (checkOperands_error h) | (cases h; try exact .inl rfl)

/-- The one cause that decoding a command code can name (R261). -/
theorem decodeCmd_error {b : Byte} {c : Cause} (h : decodeCmd b = .error c) : c = .illegalCommand := by
  unfold decodeCmd at h
  split at h <;> first | (cases h; rfl) | cases h

/-- The commands, by name. -/
theorem decodeCmd_ok {b : Byte} {i : Instr} (h : decodeCmd b = .ok i) :
    i ∈ [.aesExpandKey, .aesEncryptBlock, .aesSingleRound, .aesSingleRoundHeavy, .rmExec, .hfFinalize] := by
  unfold decodeCmd at h
  split at h <;> cases h <;> simp

end Sys2Proof
end

