-- ==== Sys2Proof/Laws/Rmu.lean ====
section
/-! SUPPORT. What an ALU instruction does, said once for all six, and which instructions a word can decode to. -/

namespace Sys2Proof.Machine

/-- The two index bytes and the ALU function of an ALU instruction. -/
def aluOf : Instr → Option (Byte × Byte × (W32 → W32 → W32))
  | .aesExpandKey => none
  | .aesEncryptBlock => none
  | .aesSingleRound => none
  | .aesSingleRoundHeavy => none
  | .rmExec => none
  | .hfFinalize => none
  | .mul d s => some (d, s, aluMul)
  | .add d s c => some (d, s, aluAdd c)
  | .sub d s => some (d, s, aluSub)
  | .ror d s => some (d, s, aluRor)
  | .rol d s => some (d, s, aluRol)
  | .xor d s => some (d, s, aluXor)
  | .ret => none

/-- The six ALU instructions have one shape. -/
theorem exec_of_aluOf {i : Instr} {d s : Byte} {f : W32 → W32 → W32} (h : aluOf i = some (d, s, f)) (st : State) :
    exec i st = aluStep d s f st := by
  cases i <;> simp [aluOf] at h <;> obtain ⟨rfl, rfl, rfl⟩ := h <;> rfl

theorem operandsOf_of_aluOf {i : Instr} {d s : Byte} {f : W32 → W32 → W32} (h : aluOf i = some (d, s, f)) :
    operandsOf i = [{ space := .r, index := d.toNat }, { space := .r, index := s.toNat }] := by
  cases i <;> simp [aluOf] at h <;> obtain ⟨rfl, rfl, rfl⟩ := h <;> rfl

/-- A word decodes to a RET or to an ALU instruction with legal indexes. -/
theorem decodeRm_ok {w : W64} {i : Instr} (h : decodeRm w = .ok i) :
    i = .ret ∨ ∃ d s f, aluOf i = some (d, s, f) ∧ dstLegal d = true ∧ srcLegal s = true := by
  unfold decodeRm at h
  split at h
  case h_7 => cases h; exact .inl rfl
  case h_8 => cases h
  all_goals
    obtain ⟨rfl, _, hd, hs⟩ := checkOperands_ok.mp h
    exact .inr ⟨_, _, _, rfl, hd, hs⟩

/-- The context after an ALU instruction with legal indexes. -/
def aluEffect (d s : Byte) (f : W32 → W32 → W32) (c : Context) : Context :=
  Context.advance
    { c.noteReads c.pc [{ space := .r, index := d.toNat }, { space := .r, index := s.toNat }] with
      r := c.r.set d.toNat (f (c.r.get d.toNat) (c.r.get s.toNat)) }

/-- An ALU instruction with legal indexes completes and changes the moving context alone. -/
theorem aluStep_legal {d s : Byte} (f : W32 → W32 → W32) (st : State) (hd : dstLegal d = true)
    (hs : srcLegal s = true) : aluStep d s f st = .next (st.mapCtx (aluEffect d s f)) := by
  simp only [aluStep, hd, hs, State.mapCtx, aluEffect, Context.noteReads_r, Bool.true_eq_false, if_false]

theorem aluEffect_noteReads (d s : Byte) (f : W32 → W32 → W32) (c : Context) :
    ∃ u, u = (c.noteReads c.pc [{ space := .r, index := d.toNat }, { space := .r, index := s.toNat }]).uninit ∧
      aluEffect d s f c =
        Context.advance { c with r := c.r.set d.toNat (f (c.r.get d.toNat) (c.r.get s.toNat)), uninit := u } :=
  ⟨_, rfl, by unfold aluEffect; rw [Context.noteReads_eq]⟩

section Advance

variable (c : Context)

@[simp] theorem Context.advance_key : c.advance.key = c.key := by unfold Context.advance; split <;> rfl
@[simp] theorem Context.advance_rk : c.advance.rk = c.rk := by unfold Context.advance; split <;> rfl
@[simp] theorem Context.advance_inp : c.advance.inp = c.inp := by unfold Context.advance; split <;> rfl
@[simp] theorem Context.advance_rkey : c.advance.rkey = c.rkey := by unfold Context.advance; split <;> rfl
@[simp] theorem Context.advance_out : c.advance.out = c.out := by unfold Context.advance; split <;> rfl
@[simp] theorem Context.advance_kout : c.advance.kout = c.kout := by unfold Context.advance; split <;> rfl
@[simp] theorem Context.advance_r : c.advance.r = c.r := by unfold Context.advance; split <;> rfl
@[simp] theorem Context.advance_pmem : c.advance.pmem = c.pmem := by unfold Context.advance; split <;> rfl
@[simp] theorem Context.advance_st : c.advance.st = c.st := by unfold Context.advance; split <;> rfl
@[simp] theorem Context.advance_sel : c.advance.sel = c.sel := by unfold Context.advance; split <;> rfl
@[simp] theorem Context.advance_digest : c.advance.digest = c.digest := by unfold Context.advance; split <;> rfl
@[simp] theorem Context.advance_cmd : c.advance.cmd = c.cmd := by unfold Context.advance; split <;> rfl
@[simp] theorem Context.advance_uninit : c.advance.uninit = c.uninit := by unfold Context.advance; split <;> rfl
@[simp] theorem Context.advance_pc : c.advance.pc = c.pc + 1#7 := by
  unfold Context.advance
  split
  · next h => rw [h]
  · rfl

/-- `STATUS` after an executed instruction (R185, R186). -/
theorem Context.advance_status :
    c.advance.status =
      if c.pc + 1#7 = 70#7 then { c.status with state := .done, cap := true, fpc := 70#7 } else c.status := by
  unfold Context.advance
  split <;> rfl

/-- Advancing changes `PC` and `STATUS` alone. -/
theorem Context.advance_eq : c.advance = { c with pc := c.advance.pc, status := c.advance.status } := by
  unfold Context.advance
  split <;> rfl

end Advance

/-- `PC + 1` as a number, from a slot that is fetched. -/
theorem pc_succ_toNat {pc : BitVec 7} (h : pc.toNat ≤ 69) : (pc + 1#7).toNat = pc.toNat + 1 := by
  rw [BitVec.toNat_add]
  simp
  omega

end Sys2Proof.Machine
end

