-- ==== Sys2Proof/Laws/Step.lean ====
section
/-! SUPPORT. Everything a step can do, said once. -/

namespace Sys2Proof.Machine

/-- The block after the fetch of the slot at `PC` (R182). -/
def fetched (s : State) : State :=
  s.mapCtx (·.noteReads s.ctx.pc [{ space := .pmem, index := s.ctx.pc.toNat }])

theorem rmStep_of_ok {s : State} {i : Instr} (hp : s.ctx.pc.toNat ≤ 69)
    (hd : decodeRm (s.ctx.pmem.get s.ctx.pc.toNat) = .ok i) : rmStep s = exec i (fetched s) := by
  have h : ¬ 70 ≤ s.ctx.pc.toNat := by omega
  simp [rmStep, h, hd, fetched]

theorem rmStep_of_error {s : State} {c : Cause} (hp : s.ctx.pc.toNat ≤ 69)
    (hd : decodeRm (s.ctx.pmem.get s.ctx.pc.toNat) = .error c) : rmStep s = .next (raiseRm c (fetched s)) := by
  have h : ¬ 70 ≤ s.ctx.pc.toNat := by omega
  simp [rmStep, h, hd, fetched]

/-- An RM step that answers is one of three (R181): an ALU instruction, a RET or a decode fault. -/
theorem rmStep_cases {s t : State} (h : rmStep s = .next t) :
    s.ctx.pc.toNat ≤ 69 ∧
      ((∃ i d r f, decodeRm (s.ctx.pmem.get s.ctx.pc.toNat) = .ok i ∧ aluOf i = some (d, r, f) ∧
          dstLegal d = true ∧ srcLegal r = true ∧ t = (fetched s).mapCtx (aluEffect d r f)) ∨
        (decodeRm (s.ctx.pmem.get s.ctx.pc.toNat) = .ok .ret ∧
          t = (fetched s).mapCtx fun c => { c with status := { c.status with state := .done, fpc := c.pc } }) ∨
        ∃ c, decodeRm (s.ctx.pmem.get s.ctx.pc.toNat) = .error c ∧ t = raiseRm c (fetched s)) := by
  by_cases hp : s.ctx.pc.toNat ≤ 69
  · refine ⟨hp, ?_⟩
    cases hd : decodeRm (s.ctx.pmem.get s.ctx.pc.toNat) with
    | error c =>
      rw [rmStep_of_error hp hd] at h
      cases h
      exact .inr (.inr ⟨c, rfl, rfl⟩)
    | ok i =>
      rw [rmStep_of_ok hp hd] at h
      obtain rfl | ⟨d, r, f, ha, hdl, hrl⟩ := decodeRm_ok hd
      · cases h
        exact .inr (.inl ⟨rfl, rfl⟩)
      · rw [exec_of_aluOf ha, aluStep_legal f _ hdl hrl] at h
        cases h
        exact .inl ⟨i, d, r, f, rfl, ha, hdl, hrl, rfl⟩
  · have h70 : 70 ≤ s.ctx.pc.toNat := by omega
    simp [rmStep, h70] at h

/-- An RM step completes wherever a fetch exists (R182). -/
theorem rmStep_completes {s : State} (hp : s.ctx.pc.toNat ≤ 69) : ∃ t, rmStep s = .next t := by
  cases hd : decodeRm (s.ctx.pmem.get s.ctx.pc.toNat) with
  | error c => exact ⟨_, rmStep_of_error hp hd⟩
  | ok i =>
    rw [rmStep_of_ok hp hd]
    obtain rfl | ⟨d, r, f, ha, hdl, hrl⟩ := decodeRm_ok hd
    · exact ⟨_, rfl⟩
    · exact ⟨_, by rw [exec_of_aluOf ha, aluStep_legal f _ hdl hrl]⟩

/-- Where the next move is an RM step, the step is that RM step. -/
theorem NextRm.step_eq {s t : State} (h : NextRm s t) : step s = rmStep t := by
  cases h with
  | rest hi hb => simp [step, hi, restStep, hb]
  | turn hi hf hb => simp [step, hi, turnStep, hf, hb]
  | held hi hf hr hb hs => simp [step, hi, hostStep, hf, hr, hb, hs]

theorem NextRm.busy {s t : State} (h : NextRm s t) : t.ctx.busy = true := by cases h <;> assumption

/-- The accesses that can be made (R61, R73). -/
theorem HostAccess.refusal_eq_none {a : HostAccess} :
    a.refusal = none ↔ a.reg.index < a.reg.space.entries ∧ a.bits = a.reg.space.width := by
  unfold HostAccess.refusal
  split
  · next h => simp; omega
  · split
    · next h h' => simp [h']
    · next h h' => simp [not_not.mp h']; omega

@[simp] theorem refusal_write_cmd (v : W64) : (HostAccess.write .cmd 0 8 v).refusal = none :=
  HostAccess.refusal_eq_none.mpr ⟨Nat.one_pos, rfl⟩

/-- Where the next move is a `CMD` write, the step decodes and runs it, or raises the fault of R92. -/
theorem NextCommand.step_eq {s t : State} {c : Byte} (h : NextCommand s c t) :
    step s = match decodeCmd c with
      | .ok i => exec i t
      | .error e => .next (raiseCmd e t) := by
  cases h with
  | write hi hc hf hb =>
    subst hc
    simp only [step, hi, hostStep, hf, refusal_write_cmd, hb, performAccess, issueCommand, Bool.false_and, if_true,
      State.mapCtx, Bool.false_eq_true, if_false] <;> (cases decodeCmd _ <;> rfl)

/-- A host read that does not hold (R70, R77). -/
theorem step_hostRead {s u : State} {k : Nat} {sp : Space} {i b : Nat} {rest : List Input}
    (hi : s.inputs = .host k (.read sp i b) :: rest) (hf : s.focus k = some u)
    (hr : (HostAccess.read sp i b).refusal = none) (hb : u.ctx.busy = false ∨ sp = .status) :
    step s = .next (hostRead { space := sp, index := i } { u with inputs := rest }) := by
  have h : (u.ctx.busy && !(HostAccess.read sp i b).isStatusRead) = false := by
    rcases hb with hb | hb <;> simp [HostAccess.isStatusRead, hb]
  simp only [step, hi, hostStep, hf, hr, h, performAccess, Bool.false_eq_true, if_false]

/-- A host write of a register other than `CMD` that does not hold (R70, R77). -/
theorem step_hostWrite {s u : State} {k : Nat} {sp : Space} {i b : Nat} {v : W64} {rest : List Input}
    (hi : s.inputs = .host k (.write sp i b v) :: rest) (hf : s.focus k = some u)
    (hr : (HostAccess.write sp i b v).refusal = none) (hb : u.ctx.busy = false) (hsp : sp ≠ .cmd) :
    step s = .next { u with inputs := rest, ctx := u.ctx.hostWrite { space := sp, index := i } v } := by
  simp only [step, hi, hostStep, hf, hr, hb, performAccess, Bool.false_and, Bool.false_eq_true, if_false, hsp,
    State.mapCtx]

/-- A run of `n + 1` steps whose first step is known. -/
theorem run_succ {s t : State} (n : Nat) (h : step s = .next t) :
    Host.Core.run core (n + 1) s = Host.Core.run core n t := by
  have hc : core.step s = .next t := h
  simp only [Host.Core.run, hc]

/-- What an RM step of a run does to the run: it ends, or it goes on one slot further (R197). -/
theorem rmStep_progress {s t : State} (h : rmStep s = .next t) (hb : s.ctx.busy = true) :
    t.inputs = s.inputs ∧ t.ctxId = s.ctxId ∧
      (t.ctx.status.state = .done ∨ t.ctx.status.state = .fault ∨
        (t.ctx.busy = true ∧ t.ctx.pc.toNat = s.ctx.pc.toNat + 1 ∧ t.ctx.pc.toNat ≤ 69)) := by
  obtain ⟨hp, ⟨i, d, r, f, _, _, _, _, rfl⟩ | ⟨_, rfl⟩ | ⟨c, _, rfl⟩⟩ := rmStep_cases h
  · refine ⟨rfl, rfl, ?_⟩
    by_cases hc : s.ctx.pc + 1#7 = 70#7
    · exact .inl (by simp [fetched, aluEffect, Context.advance_status, hc])
    · have h3 := pc_succ_toNat hp
      have h4 : (s.ctx.pc + 1#7).toNat ≠ 70 := fun h' => hc (BitVec.eq_of_toNat_eq (by rw [h']; rfl))
      simp only [fetched, aluEffect, Context.busy, State.mapCtx_ctx, Context.advance_status, Context.advance_pc,
        Context.noteReads_pc, Context.noteReads_status, hc, if_false]
      exact .inr (.inr ⟨by simpa [Context.busy] using hb, h3, by omega⟩)
  · exact ⟨rfl, rfl, .inl rfl⟩
  · exact ⟨rfl, rfl, .inr (.inl rfl)⟩

/-- Everything a step that answers can be. -/
theorem step_cases {s t : State} (h : step s = .next t) :
    (∃ rest, s.inputs = .reset :: rest ∧ t = resetBlock { s with inputs := rest }) ∨
    (∃ u, NextRm s u ∧ rmStep u = .next t) ∨
    (∃ c u i, NextCommand s c u ∧ decodeCmd c = .ok i ∧ exec i u = .next t) ∨
    (∃ c u e, NextCommand s c u ∧ decodeCmd c = .error e ∧ t = raiseCmd e u) ∨
    (∃ k sp i b rest u, s.inputs = .host k (.read sp i b) :: rest ∧ s.focus k = some u ∧
      (HostAccess.read sp i b).refusal = none ∧ (u.ctx.busy = false ∨ sp = .status) ∧
      t = hostRead { space := sp, index := i } { u with inputs := rest }) ∨
    (∃ k sp i b v rest u, s.inputs = .host k (.write sp i b v) :: rest ∧ s.focus k = some u ∧
      (HostAccess.write sp i b v).refusal = none ∧ u.ctx.busy = false ∧ sp ≠ .cmd ∧
      t = { u with inputs := rest, ctx := u.ctx.hostWrite { space := sp, index := i } v }) ∨
    (∃ k rest, s.inputs = .turn k :: rest ∧ State.focus { s with inputs := rest } k = some t ∧ t.ctx.busy = false) ∨
    (s.inputs = [] ∧ s.ctx.busy = false ∧ t = s.passTurn) := by
  cases hi : s.inputs with
  | nil =>
    simp only [step, hi, restStep] at h
    split at h
    · next hb => exact .inr (.inl ⟨s, .rest hi hb, h⟩)
    · next hb =>
      cases h
      simp at hb
      simp [hb]
  | cons m rest =>
    cases m with
    | reset =>
      simp only [step, hi] at h
      cases h
      exact .inl ⟨rest, rfl, rfl⟩
    | turn k =>
      simp only [step, hi, turnStep] at h
      cases hf : State.focus { s with inputs := rest } k with
      | none => simp [hf] at h
      | some u =>
        simp only [hf] at h
        split at h
        · next hb => exact .inr (.inl ⟨u, .turn hi hf hb, h⟩)
        · next hb =>
          cases h
          simp only [Bool.not_eq_true] at hb
          exact .inr (.inr (.inr (.inr (.inr (.inr (.inl ⟨k, rest, rfl, hf, hb⟩))))))
    | host k a =>
      simp only [step, hi, hostStep] at h
      cases hf : s.focus k with
      | none => simp [hf] at h
      | some u =>
        simp only [hf] at h
        cases hr : a.refusal with
        | some r => simp [hr] at h
        | none =>
          simp only [hr] at h
          split at h
          · next hb =>
            simp only [Bool.and_eq_true, Bool.not_eq_true'] at hb
            exact .inr (.inl ⟨u, .held hi hf hr hb.1 hb.2, h⟩)
          · next hb =>
            cases a with
            | read sp i b =>
              cases h
              have hb' : u.ctx.busy = false ∨ sp = .status := by
                simp only [HostAccess.isStatusRead, Bool.and_eq_true, Bool.not_eq_true', decide_eq_false_iff_not,
                  not_and_or, Bool.not_eq_true, not_not] at hb
                exact hb
              exact .inr (.inr (.inr (.inr (.inl ⟨k, sp, i, b, rest, u, rfl, hf, hr, hb', rfl⟩))))
            | write sp i b v =>
              simp only [HostAccess.isStatusRead, Bool.not_false, Bool.and_true, Bool.not_eq_true] at hb
              by_cases hsp : sp = .cmd
              · subst hsp
                have hib : i = 0 ∧ b = 8 := by
                  have hw := HostAccess.refusal_eq_none.mp hr
                  exact ⟨Nat.lt_one_iff.mp hw.1, hw.2⟩
                obtain ⟨rfl, rfl⟩ := hib
                have hn := NextCommand.write hi rfl hf hb
                have hs := hn.step_eq
                simp only [performAccess, if_true, issueCommand, State.mapCtx] at h
                cases hd : decodeCmd (v.setWidth 8) with
                | ok j =>
                  rw [hd] at h
                  exact .inr (.inr (.inl ⟨_, _, j, hn, hd, h⟩))
                | error e =>
                  rw [hd] at h
                  cases h
                  exact .inr (.inr (.inr (.inl ⟨_, _, e, hn, hd, rfl⟩)))
              · simp only [performAccess, hsp, if_false] at h
                cases h
                exact .inr (.inr (.inr (.inr (.inr (.inl ⟨k, sp, i, b, v, rest, u, rfl, hf, hr, hb, hsp, rfl⟩)))))

end Sys2Proof.Machine
end

