-- ==== Sys2Proof/Laws/Contexts.lean ====
section
/-! SUPPORT. What a step does to the contexts it does not move, and on what the moved context depends (R75). -/

namespace Sys2Proof.Machine

/-- No instruction touches the other contexts, the inputs or what the host was told. -/
theorem exec_frame {i : Instr} {s t : State} (h : exec i s = .next t) :
    t.lower = s.lower ∧ t.upper = s.upper ∧ t.inputs = s.inputs ∧ t.hostData = s.hostData := by
  cases ha : aluOf i with
  | some p =>
    obtain ⟨d, r, f⟩ := p
    rw [exec_of_aluOf ha] at h
    unfold aluStep at h
    split at h
    · cases h; exact ⟨rfl, rfl, rfl, rfl⟩
    · split at h <;> (cases h; exact ⟨rfl, rfl, rfl, rfl⟩)
  | none => cases i <;> simp [aluOf] at ha <;> (cases h; exact ⟨rfl, rfl, rfl, rfl⟩)

/-- Nor does an RM step, which leaves the pools alone too (R195). -/
theorem rmStep_frame {s t : State} (h : rmStep s = .next t) :
    t.lower = s.lower ∧ t.upper = s.upper ∧ t.inputs = s.inputs ∧ t.hostData = s.hostData ∧ t.pool = s.pool ∧
      t.leases = s.leases := by
  obtain ⟨_, ⟨_, _, _, _, _, _, _, _, rfl⟩ | ⟨_, rfl⟩ | ⟨_, _, rfl⟩⟩ := rmStep_cases h <;>
    exact ⟨rfl, rfl, rfl, rfl, rfl, rfl⟩

/-- No instruction clears or changes the record of an unwritten read (R263). -/
theorem exec_uninit_of_some {i : Instr} {s t : State} {u : UninitRead} (h : exec i s = .next t)
    (hu : s.ctx.uninit = some u) : t.ctx.uninit = some u := by
  cases ha : aluOf i with
  | some p =>
    obtain ⟨d, r, f⟩ := p
    rw [exec_of_aluOf ha] at h
    unfold aluStep at h
    split at h
    · cases h
      exact hu
    · split at h
      · cases h
        exact hu
      · cases h
        simp only [State.mapCtx_ctx, Context.advance_uninit]
        exact Context.noteReads_uninit_of_some _ _ _ hu
  | none =>
    have hs : s.ctx.start.uninit = some u := hu
    cases i <;> simp only [aluOf, reduceCtorEq] at ha
    case rmExec =>
      cases h
      exact hu
    case ret =>
      cases h
      exact hu
    case hfFinalize =>
      simp only [exec, execHfFinalize_eq] at h
      cases h
      exact Context.noteReads_uninit_of_some _ _ _ hs
    all_goals
      simp only [exec, execAesExpandKey, execAesEncryptBlock, execAesSingleRound, execAesSingleRoundHeavy] at h
      refine (runCommand_uninit (fun c => ?_) h).trans (Context.noteReads_uninit_of_some _ _ _ hs)
      dsimp only

/-- Nor does an RM step (R263). -/
theorem rmStep_uninit_of_some {s t : State} {u : UninitRead} (h : rmStep s = .next t)
    (hu : s.ctx.uninit = some u) : t.ctx.uninit = some u := by
  have hf : (fetched s).ctx.uninit = some u := Context.noteReads_uninit_of_some _ _ _ hu
  obtain ⟨_, ⟨_, _, _, _, _, _, _, _, rfl⟩ | ⟨_, rfl⟩ | ⟨_, _, rfl⟩⟩ := rmStep_cases h
  · simp only [State.mapCtx_ctx, aluEffect, Context.advance_uninit]
    exact Context.noteReads_uninit_of_some _ _ _ hf
  · exact hf
  · exact hf

/-- The moving context after an instruction depends on that context alone (R75, R241). -/
theorem exec_ctx_congr {i : Instr} {s s' t : State} (h : exec i s = .next t) (hc : s'.ctx = s.ctx) :
    ∃ t', exec i s' = .next t' ∧ t'.ctx = t.ctx := by
  cases ha : aluOf i with
  | some p =>
    obtain ⟨d, r, f⟩ := p
    rw [exec_of_aluOf ha] at h ⊢
    unfold aluStep at h ⊢
    split at h
    · next hh =>
      cases h
      exact ⟨_, if_pos hh, by simp [raiseRm, raiseFault, hc]⟩
    · next hh =>
      rw [if_neg hh]
      split at h
      · next hh =>
        cases h
        exact ⟨_, if_pos hh, by simp [raiseRm, raiseFault, hc]⟩
      · next hh =>
        cases h
        exact ⟨_, if_neg hh, by simp [hc]⟩
  | none =>
    cases i <;> simp [aluOf] at ha
    case hfFinalize =>
      simp only [exec, execHfFinalize_eq] at h ⊢
      cases h
      exact ⟨_, rfl, by simp [hc]⟩
    all_goals
      cases h
      exact ⟨_, rfl, by simp [hc]⟩

/-- The moving context after an RM step depends on that context alone (R75). -/
theorem rmStep_ctx_congr {s s' t : State} (h : rmStep s = .next t) (hc : s'.ctx = s.ctx) :
    ∃ t', rmStep s' = .next t' ∧ t'.ctx = t.ctx := by
  have hp := (rmStep_cases h).1
  cases hd : decodeRm (s.ctx.pmem.get s.ctx.pc.toNat) with
  | error c =>
    rw [rmStep_of_error hp hd] at h
    cases h
    rw [rmStep_of_error (by rw [hc]; exact hp) (by rw [hc]; exact hd)]
    exact ⟨_, rfl, by simp [raiseRm, raiseFault, fetched, hc]⟩
  | ok i =>
    rw [rmStep_of_ok hp hd] at h
    rw [rmStep_of_ok (by rw [hc]; exact hp) (by rw [hc]; exact hd)]
    exact exec_ctx_congr h (by simp [fetched, hc])

/-- A block that differs from `u` in its moving context alone has every other context of `u`. -/
theorem State.contexts_of_frame {u t : State} (hl : t.lower = u.lower) (hu : t.upper = u.upper) :
    t.contexts = u.contexts.set u.ctxId t.ctx := by
  rw [← State.contexts_with_ctx]
  exact State.contexts_congr hl rfl hu

/-- The moving context keeps its number while the contexts below it are the same. -/
theorem State.contexts_getElem?_of_lower {u t : State} (hl : t.lower = u.lower) :
    t.contexts[u.ctxId]? = some t.ctx := by
  have : t.ctxId = u.ctxId := by simp [State.ctxId, hl]
  rw [← this]
  simp

/-- Where one block has a context `k` to choose, a block with the same context `k` has it too. -/
theorem State.focus_congr {s s' u : State} {k : Nat} (hf : s.focus k = some u)
    (hc : s.contexts[k]? = s'.contexts[k]?) : ∃ u', s'.focus k = some u' ∧ u'.ctx = u.ctx ∧ u'.ctxId = k := by
  have hk : s'.contexts[k]? = some u.ctx := by rw [← hc]; exact (State.focus_spec hf).2.2.1
  have hsome := State.focus_isSome s' k
  rw [decide_eq_true (List.getElem?_eq_some_iff.mp hk).1] at hsome
  obtain ⟨u', hu'⟩ := Option.isSome_iff_exists.mp hsome
  have hs' := State.focus_spec hu'
  exact ⟨u', hu', by simpa using hs'.2.2.1.symm.trans hk, hs'.2.1⟩

/-- Passing the turn changes no context, and the turn goes to the next number. -/
theorem State.passTurn_spec (s : State) :
    s.passTurn.contexts = s.contexts ∧ s.passTurn.ctxId = (s.ctxId + 1) % s.contexts.length ∧
      s.passTurn.pool = s.pool ∧ s.passTurn.inputs = s.inputs ∧ s.passTurn.hostData = s.hostData ∧
      s.passTurn.leases = s.leases := by
  unfold State.passTurn
  split
  · next c u hu =>
    refine ⟨by simp [State.contexts, hu], ?_, rfl, rfl, rfl, rfl⟩
    simp only [State.contexts_length, State.ctxId, hu, List.length_cons]
    rw [Nat.mod_eq_of_lt (by omega)]
  · next hu =>
    split
    · next c u hc =>
      refine ⟨by simp only [State.contexts]; rw [← State.contexts, hc]; rfl, ?_, rfl, rfl, rfl, rfl⟩
      simp [State.ctxId, hu]
    · next hc => simp [State.contexts] at hc

/-- The contexts after reset of the block (R300). -/
theorem resetBlock_contexts (s : State) : (resetBlock s).contexts = s.contexts.map Context.afterReset := by
  simp [resetBlock, State.contexts]

/-- Every pool is empty after reset of the block (R300). -/
theorem poolOf_of_empty {s : State} (h : s.pool = emptyPools) (k : BitVec 2) : s.poolOf k = [] := by
  have hk := k.isLt
  simp only [State.poolOf, h, emptyPools, Vector.getElem?_replicate]
  split <;> rfl

section Agreement

theorem RegBank.Agree.refl {w n : Nat} (b : RegBank w n) : b.Agree b := ⟨rfl, fun _ _ => rfl⟩

/-- Banks that agree give the same value wherever one of them is written. -/
theorem RegBank.Agree.get_eq {w n : Nat} {a b : RegBank w n} (h : a.Agree b) {i : Nat} (hi : b.isWritten i = true) :
    a.get i = b.get i :=
  h.val i (by simpa only [RegBank.isWritten, h.written] using hi)

/-- Writing the same value keeps two banks in agreement. -/
theorem RegBank.Agree.set {w n : Nat} {a b : RegBank w n} (h : a.Agree b) (i : Nat) (v : BitVec w) :
    (a.set i v).Agree (b.set i v) := by
  refine ⟨by simp [RegBank.set, h.written], fun j hj => ?_⟩
  rw [RegBank.get_set, RegBank.get_set]
  split
  · rfl
  · next hij =>
    rw [RegBank.isWritten_set, if_neg hij] at hj
    exact h.val j hj

theorem Context.Agree.refl (c : Context) : c.Agree c :=
  ⟨.refl _, .refl _, .refl _, .refl _, .refl _, .refl _, .refl _, .refl _, .refl _, .refl _, rfl, rfl, rfl, rfl, rfl⟩

/-- Contexts that agree have the same written bits (R43). -/
theorem Context.Agree.isWritten_eq {a b : Context} (h : a.Agree b) (x : RegRef) : a.isWritten x = b.isWritten x := by
  obtain ⟨sp, i⟩ := x
  cases sp <;>
    simp [Context.isWritten, RegBank.isWritten, h.key.written, h.rk.written, h.inp.written, h.rkey.written,
      h.out.written, h.kout.written, h.r.written, h.pmem.written, h.st.written, h.digest.written]

end Agreement

end Sys2Proof.Machine
end

