-- ==== Sys2Proof/Laws/Agreement.lean ====
section
/-! SUPPORT. Blocks that differ in unwritten values only: what the shared operations make of them (R43, R263). -/

namespace Sys2Proof.Machine

/-- Register `i` is among the first `n` of its space. -/
theorem mem_regs {sp : Space} {n i : Nat} (h : i < n) : ({ space := sp, index := i } : RegRef) ∈ regs sp n := by
  simp [regs, h]

/-- Reads that leave the record clear read written registers only, and change neither of two contexts that agree. -/
theorem Context.Agree.noteReads {a b : Context} (h : a.Agree b) {slot : BitVec 7} {xs : List RegRef}
    (hu : (a.noteReads slot xs).uninit = none) :
    a.noteReads slot xs = a ∧ b.noteReads slot xs = b ∧ ∀ x ∈ xs, a.isWritten x = true := by
  have hw := ((Context.noteReads_uninit_none slot xs a).mp hu).2
  exact ⟨Context.noteReads_of_written _ _ _ hw,
    Context.noteReads_of_written _ _ _ fun x hx => by rw [← h.isWritten_eq]; exact hw x hx, hw⟩

theorem Context.Agree.advance {a b : Context} (h : a.Agree b) : a.advance.Agree b.advance := by
  unfold Context.advance
  rw [h.pc]
  split
  · exact { h with pc := rfl, status := by simp [h.status] }
  · exact { h with pc := rfl }

theorem Context.Agree.start {a b : Context} (h : a.Agree b) : a.start.Agree b.start := { h with status := rfl }

theorem Context.Agree.finish {a b : Context} (h : a.Agree b) : a.finish.Agree b.finish :=
  { h with status := by simp [h.status] }

/-- Rounds `r` to `r + n - 1` depend on the round-key words below `4 (r + n)` alone (R138). -/
theorem encryptRounds_congr {f g : Nat → W32} (n r : Nat) (s : Block) (h : ∀ i < 4 * (r + n), f i = g i) :
    encryptRounds f n r s = encryptRounds g n r s := by
  induction n generalizing r s with
  | zero => rfl
  | succ n ih =>
    have hk : (roundKeyBytes fun j => f (4 * r + j)) = roundKeyBytes fun j => g (4 * r + j) := by
      apply Vector.ext
      intro i hi
      simp only [roundKeyBytes, Vector.getElem_ofFn]
      rw [h _ (by omega)]
    rw [encryptRounds, encryptRounds, hk]
    exact ih _ _ fun i hi => h i (by omega)

/-- Contexts in the order of their numbers agree one by one. -/
theorem State.Agree.contexts {s t : State} (h : s.Agree t) :
    List.Forall₂ Context.Agree s.contexts t.contexts := by
  simp only [State.contexts]
  exact List.rel_append (R := Context.Agree) (List.rel_reverse h.lower) (.cons h.ctx h.upper)

/-- The records of contexts that agree are clear together. -/
theorem State.clean_congr {s t : State} (h : List.Forall₂ Context.Agree s.contexts t.contexts) :
    s.clean = t.clean := by
  simp only [State.clean]
  generalize s.contexts = l at h ⊢
  generalize t.contexts = m at h ⊢
  induction h with
  | nil => rfl
  | cons h1 _ ih => simp only [List.all_cons, h1.uninit, ih]

/-- Choosing a context keeps agreement. -/
theorem State.Agree.focus {s s' u : State} {k : Nat} (h : s.Agree s') (hf : s.focus k = some u) :
    ∃ u', s'.focus k = some u' ∧ u.Agree u' := by
  have hk : s.ctxId = s'.ctxId := h.lower.length_eq
  unfold State.focus at hf ⊢
  split at hf
  · next he =>
    cases hf
    exact ⟨s', if_pos (by rw [← hk]; exact he), h⟩
  · next he =>
    rw [if_neg (by rw [← hk]; exact he)]
    have hd := List.forall₂_drop k h.contexts
    have ht := List.forall₂_take k h.contexts
    split at hf
    · next c up hd1 =>
      rw [hd1] at hd
      cases hf
      cases hd' : s'.contexts.drop k with
      | nil =>
        rw [hd'] at hd
        cases hd
      | cons c' up' =>
        rw [hd'] at hd
        cases hd with
        | cons h1 h2 => exact ⟨_, rfl, { h with lower := List.rel_reverse ht, ctx := h1, upper := h2 }⟩
    · cases hf

/-- What the checked step answers (R263). -/
theorem checkedStep_eq_next {s t : State} : checkedStep s = .next t ↔ step s = .next t ∧ t.clean = true := by
  unfold checkedStep
  cases step s with
  | next u =>
    by_cases h : u.clean = true
    · simp [h]
      rintro rfl
      exact h
    · simp [h]
      rintro rfl
      simpa using h
  | fault f => simp
  | refused r => simp

end Sys2Proof.Machine
end

