-- ==== Sys2Proof/Laws/Assembler.lean ====
section
/-! SUPPORT. What the pieces of the assembler answer: blanks, commas and digits (R106). -/

namespace Sys2Proof.Machine

theorem dropWhile_isBlank_of_head {l : List Char} (h : ∀ c, l.head? = some c → isBlank c = false) :
    l.dropWhile isBlank = l := by
  cases l with
  | nil => rfl
  | cons c cs => simp [List.dropWhile, h c rfl]

/-- A line with no blank at either end is its own strip. -/
theorem strip_of_ends {l : List Char} (h0 : ∀ c, l.head? = some c → isBlank c = false)
    (h1 : ∀ c, l.getLast? = some c → isBlank c = false) : strip l = l := by
  rw [strip, dropWhile_isBlank_of_head h0, dropWhile_isBlank_of_head (by simpa using h1), List.reverse_reverse]

/-- A blank in front is dropped. -/
theorem strip_cons_blank {c : Char} (h : isBlank c = true) (l : List Char) : strip (c :: l) = strip l := by
  simp only [strip, List.dropWhile_cons_of_pos h]

theorem splitCommas_ne_nil (l : List Char) : splitCommas l ≠ [] := by
  cases l with
  | nil => simp [splitCommas]
  | cons c cs =>
    simp only [splitCommas]
    split
    · simp
    · split <;> simp

/-- A piece with no comma. -/
theorem splitCommas_of_not_mem {l : List Char} (h : ',' ∉ l) : splitCommas l = [l] := by
  induction l with
  | nil => rfl
  | cons c cs ih =>
    simp only [List.mem_cons, not_or] at h
    simp only [splitCommas, ih h.2, if_neg (Ne.symm h.1)]

/-- The piece before the first comma. -/
theorem splitCommas_append {a : List Char} (h : ',' ∉ a) (l : List Char) :
    splitCommas (a ++ ',' :: l) = a :: splitCommas l := by
  induction a with
  | nil =>
    simp only [List.nil_append, splitCommas]
    cases hl : splitCommas l with
    | nil => exact absurd hl (splitCommas_ne_nil l)
    | cons p ps => simp
  | cons c cs ih =>
    simp only [List.mem_cons, not_or] at h
    simp only [List.cons_append, splitCommas, ih h.2, if_neg (Ne.symm h.1)]

/-- The value of digits, most significant first. -/
theorem digitsValue_eq_ofDigits {base : Nat} {l : List Char} {ds : List Nat}
    (h : List.Forall₂ (fun c d => digitValue base c = some d) l ds) :
    digitsValue base l = some (Nat.ofDigits base ds.reverse) := by
  have gen : ∀ a : Nat, l.foldl (fun acc c => do return base * (← acc) + (← digitValue base c)) (some a) =
      some (Nat.ofDigits base ds.reverse + base ^ ds.length * a) := by
    induction h with
    | nil => intro a; simp
    | @cons c d l ds h1 _ ih =>
      intro a
      have hs : (do return base * (← some a) + (← digitValue base c) : Option Nat) = some (base * a + d) := by
        rw [h1]
        rfl
      rw [List.foldl_cons, hs, ih]
      simp only [List.reverse_cons, List.length_cons, Nat.ofDigits_append, List.length_reverse,
        Nat.ofDigits_singleton, Option.some.injEq]
      ring
  have := gen 0
  rwa [Nat.mul_zero, Nat.add_zero] at this

end Sys2Proof.Machine
end

