-- ==== Sys2Proof/Laws/PerInstr.lean ====
section
/-! SUPPORT. Statements made of every instruction as syntax: its encoding lies in its own row of the opcode table. -/

namespace Sys2Proof.Laws.TableRow

open Sys2Proof

/-- `match` and `mask` of an instruction's row of `spec/opcode_table.json`. -/
def row : Instr → Nat × Nat
  | .aesExpandKey => (0x01, 0xff)
  | .aesEncryptBlock => (0x02, 0xff)
  | .aesSingleRound => (0x03, 0xff)
  | .aesSingleRoundHeavy => (0x04, 0xff)
  | .rmExec => (0x10, 0xff)
  | .hfFinalize => (0x20, 0xff)
  | .mul _ _ => (0x0, 0xff0000ff)
  | .add _ _ _ => (0x1, 0xff0000ff)
  | .sub _ _ => (0x2, 0xff0000ff)
  | .ror _ _ => (0x3, 0xff0000ff)
  | .rol _ _ => (0x4, 0xff0000ff)
  | .xor _ _ => (0x5, 0xff0000ff)
  | .ret => (0x6, 0xff)

/-- The bits of a code as a number. -/
def codeNat : Code → Nat
  | .cmd8 c => c.toNat
  | .rm64 w => w.toNat

/-- The encoded instruction has its row's value under its row's mask. -/
def Statement (i : Instr) : Prop := codeNat (encode i) &&& (row i).2 = (row i).1

/-- The bits the mask of an ALU row keeps. -/
theorem mask_bit (i : Nat) (h : i < 64) :
    (0xff0000ff#64).getLsbD i = (decide (i < 8) || (decide (24 ≤ i) && decide (i < 32))) := by
  revert i
  decide

/-- Under that mask an assembled word shows its opcode alone. -/
theorem rmWord_masked (op d s : Byte) (c : W32) :
    (rmWord op d s c).toNat &&& 0xff0000ff = op.toNat := by
  have h : rmWord op d s c &&& 0xff0000ff#64 = op.setWidth 64 := by
    apply BitVec.eq_of_getLsbD_eq
    intro i hi
    rw [BitVec.getLsbD_and, mask_bit i hi, getLsbD_rmWord, BitVec.getLsbD_setWidth]
    by_cases h8 : i < 8
    · simp [h8, hi]
    · by_cases h24 : 24 ≤ i
      · by_cases h32 : i < 32
        · have h16 : ¬ i < 16 := by omega
          have h24' : ¬ i < 24 := by omega
          simp [h8, h16, h24', h32, BitVec.getLsbD_of_ge op i (by omega)]
        · simp [h8, h32, BitVec.getLsbD_of_ge op i (by omega)]
      · simp [h8, h24, BitVec.getLsbD_of_ge op i (by omega)]
  have := congrArg BitVec.toNat h
  have hop : op.toNat < 18446744073709551616 := by omega
  simpa [Nat.mod_eq_of_lt hop] using this

theorem aesExpandKey : Statement .aesExpandKey := rfl
theorem aesEncryptBlock : Statement .aesEncryptBlock := rfl
theorem aesSingleRound : Statement .aesSingleRound := rfl
theorem aesSingleRoundHeavy : Statement .aesSingleRoundHeavy := rfl
theorem rmExec : Statement .rmExec := rfl
theorem hfFinalize : Statement .hfFinalize := rfl
theorem mul (dst src : Byte) : Statement (.mul dst src) := rmWord_masked 0#8 dst src 0#32
theorem add (dst src : Byte) (c : W32) : Statement (.add dst src c) := rmWord_masked 1#8 dst src c
theorem sub (dst src : Byte) : Statement (.sub dst src) := rmWord_masked 2#8 dst src 0#32
theorem ror (dst src : Byte) : Statement (.ror dst src) := rmWord_masked 3#8 dst src 0#32
theorem rol (dst src : Byte) : Statement (.rol dst src) := rmWord_masked 4#8 dst src 0#32
theorem xor (dst src : Byte) : Statement (.xor dst src) := rmWord_masked 5#8 dst src 0#32
theorem ret : Statement .ret := rfl

end Sys2Proof.Laws.TableRow
end

