-- ==== Sys2Proof/Tests/Slice0.lean ====
section
/-! SUPPORT. Tests whose expected values are the spec's (`V-…`, `T…` and `P…` name entries of 95_test_vectors.md), the
smoke test of `WellFormed`, and one witness for the hypotheses of every statement of `Obligations.lean`. -/

namespace Sys2Proof.Tests

open Sys2Proof Sys2Proof.Machine

/-! ### Small states and what a test looks at -/

/-- A block of one context. -/
def one (c : Context) (ins : List Input) : State :=
  { lower := [], ctx := c, upper := [], pool := emptyPools, inputs := ins, hostData := none, leases := 0 }

/-- A block of two contexts, the first of which moves. -/
def two (c d : Context) (ins : List Input) : State :=
  { lower := [], ctx := c, upper := [d], pool := emptyPools, inputs := ins, hostData := none, leases := 0 }

/-- A reset context with all of `R` written: zero but for the registers listed. -/
def regsAre (l : List (Nat × W32)) : Context :=
  { Context.reset with r := l.foldl (fun b p => b.set p.1 p.2) (.filled 9 fun _ => 0#32) }

/-- A run in progress at slot `pc`, which holds `w`. -/
def running (pc : BitVec 7) (w : W64) (c : Context) : Context :=
  { c with pc := pc, pmem := c.pmem.set pc.toNat w, status := .started }

/-- A reset context with its AESU operands written. -/
def aesOperands (b0 b1 k0 k1 : W64) : Context :=
  { Context.reset with inp := .pair (b0, b1), rkey := .pair (k0, k1), rk := .filled 40 fun i => BitVec.ofNat 32 (i + 1) }

/-- What `f` says of the next state. -/
def after {α : Type} (o : Host.Outcome State Fault Refusal) (f : State → α) : Option α :=
  match o with
  | .next t => some (f t)
  | .fault _ => none
  | .refused _ => none

/-- The register `Rd` afterwards. -/
def rAfter (o : Host.Outcome State Fault Refusal) (d : Nat) : Option W32 := after o fun t => t.ctx.r.get d

/-- `STATUS` afterwards. -/
def statusAfter (o : Host.Outcome State Fault Refusal) : Option W32 := after o fun t => statusWord t.ctx.status

/-- `OUT` afterwards. -/
def outAfter (o : Host.Outcome State Fault Refusal) : Option (W64 × W64) :=
  after o fun t => (t.ctx.out.get 0, t.ctx.out.get 1)

/-- The input of a command code. -/
def cmdInput (c : Byte) : Input := .host 0 (.write .cmd 0 8 (c.setWidth 64))

/-- Whether the checked step raises the spec's model-only fault. -/
def raisesUninit (s : State) : Bool :=
  match checkedStep s with
  | .next _ => false
  | .fault f => decide (f = .uninitRead)
  | .refused _ => false

/-! ### WellFormed -/

theorem test_wellFormed_largest : Instr.wellFormed (.add 3#8 8#8 0xffffffff#32) = true := by decide
theorem test_wellFormed_refuses_dst :
    Instr.wellFormed (.mul 4#8 0#8) = false ∧ Instr.wellFormed (.add 4#8 0#8 0#32) = false ∧
    Instr.wellFormed (.sub 4#8 0#8) = false ∧ Instr.wellFormed (.ror 4#8 0#8) = false ∧
    Instr.wellFormed (.rol 4#8 0#8) = false ∧ Instr.wellFormed (.xor 255#8 0#8) = false := by decide
theorem test_wellFormed_refuses_src :
    Instr.wellFormed (.mul 0#8 9#8) = false ∧ Instr.wellFormed (.add 0#8 9#8 0#32) = false ∧
    Instr.wellFormed (.sub 0#8 9#8) = false ∧ Instr.wellFormed (.ror 0#8 9#8) = false ∧
    Instr.wellFormed (.rol 0#8 9#8) = false ∧ Instr.wellFormed (.xor 0#8 255#8) = false := by decide

/-! ### Decoding: words written out from R91, R95 and R96 -/

theorem test_decode_aesExpandKey : decodeTableWord 8 0b00000001 = some .aesExpandKey := by decide
theorem test_decode_aesEncryptBlock : decodeTableWord 8 0b00000010 = some .aesEncryptBlock := by decide
theorem test_decode_aesSingleRound : decodeTableWord 8 0b00000011 = some .aesSingleRound := by decide
theorem test_decode_aesSingleRoundHeavy : decodeTableWord 8 0b00000100 = some .aesSingleRoundHeavy := by decide
theorem test_decode_rmExec : decodeTableWord 8 0b00010000 = some .rmExec := by decide
theorem test_decode_hfFinalize : decodeTableWord 8 0b00100000 = some .hfFinalize := by decide
/-- Bits: `C` ignored (all ones), RSV 0, SRC 00001000, DST 00000011, OP 00000000. -/
theorem test_decode_mul : decodeRm 0xffffffff00080300#64 = .ok (.mul 3#8 8#8) := by decide
/-- `C` 0x80000000, RSV 0, SRC 00001000, DST 00000000, OP 00000001. -/
theorem test_decode_add : decodeRm 0x8000000000080001#64 = .ok (.add 0#8 8#8 0x80000000#32) := by decide
/-- SRC 00001000, DST 00000010, OP 00000010. -/
theorem test_decode_sub : decodeRm 0x0000000000080202#64 = .ok (.sub 2#8 8#8) := by decide
/-- SRC 00000101, DST 00000011, OP 00000011. -/
theorem test_decode_ror : decodeRm 0x0000000000050303#64 = .ok (.ror 3#8 5#8) := by decide
/-- SRC 00000110, DST 00000010, OP 00000100. -/
theorem test_decode_rol : decodeRm 0x0000000000060204#64 = .ok (.rol 2#8 6#8) := by decide
/-- SRC 00001000, DST 00000011, OP 00000101. -/
theorem test_decode_xor : decodeRm 0x0000000000080305#64 = .ok (.xor 3#8 8#8) := by decide
/-- V-DEC10: every bit above OP is ignored. -/
theorem test_decode_ret : decodeRm 0xffffffffffffff06#64 = .ok .ret := by decide
/-- RET's table row fixes eight bits only. -/
theorem test_decode_ret_row : decodeTableWord 8 0b00000110 = some .ret ∧ decodeTableWord 64 6 = some .ret := by decide
/-- V-DEC1 to V-DEC9. -/
theorem test_decode_faults :
    decodeRm 0x0000000000000007#64 = .error .illegalOpcode ∧ decodeRm 0x00000000000900ff#64 = .error .illegalOpcode ∧
    decodeRm 0x000000000a0b0cff#64 = .error .illegalOpcode ∧
    decodeRm 0x0000000001000000#64 = .error .reservedNonzero ∧
    decodeRm 0x0000000001000400#64 = .error .reservedNonzero ∧ decodeRm 0x0000000000000405#64 = .error .illegalDst ∧
    decodeRm 0x0000000000000900#64 = .error .illegalDst ∧ decodeRm 0x0000000000090000#64 = .error .illegalSrc ∧
    decodeRm 0x0000000000090400#64 = .error .illegalDst := by decide

/-! ### Assembler (R106, R107, R109) -/

theorem test_assemble_add :
    assemble ['a', 'd', 'd', ' ', 'R', '0', ',', ' ', 'r', '4', ',', ' ', '0', 'x', '1', '0'] =
      some (.add 0#8 4#8 0x10#32) := by decide
theorem test_assemble_ret : assemble ['R', 'E', 'T'] = some .ret := by decide
theorem test_assemble_rejects :
    assemble ['M', 'U', 'L', ' ', 'R', '4', ',', 'R', '0'] = none ∧
    assemble ['M', 'U', 'L', ' ', 'R', '0', ',', 'R', '9'] = none ∧
    assemble ['M', 'U', 'L', ' ', 'R', '0', ',', 'R', '1', ',', '5'] = none ∧
    assemble ['A', 'D', 'D', ' ', 'R', '0', ',', 'R', '1', ',', '4', '2', '9', '4', '9', '6', '7', '2', '9', '6'] =
      none := by decide

theorem test_assemble_command :
    assembleCommand ['R', 'M', '_', 'E', 'X', 'E', 'C'] = some .rmExec ∧
    assembleCommand ['R', 'M', '_', 'E', 'X', 'E', 'C', 'S'] = none := by decide
/-- `KEY[0] <- 0x1F`, `v <- OUT[1]`, `CMD <- 0x10`, and `PMEM[71] <- 0`, which names no register. -/
theorem test_assemble_transfer :
    assembleTransfer ['K', 'E', 'Y', '[', '0', ']', ' ', '<', '-', ' ', '0', 'x', '1', 'F'] =
      some { reg := { space := .key, index := 0 }, value := some 0x1f#64 } ∧
    assembleTransfer ['v', ' ', '<', '-', ' ', 'O', 'U', 'T', '[', '1', ']'] =
      some { reg := { space := .out, index := 1 }, value := none } ∧
    assembleTransfer ['C', 'M', 'D', ' ', '<', '-', ' ', '0', 'x', '1', '0'] =
      some { reg := { space := .cmd, index := 0 }, value := some 0x10#64 } ∧
    assembleTransfer ['P', 'M', 'E', 'M', '[', '7', '1', ']', ' ', '<', '-', ' ', '0'] = none := by decide

/-- A space of one register with the index 0 (log entry 13). -/
theorem test_assemble_single_index :
    assembleTransfer ['v', '<', '-', 'S', 'E', 'L', '[', '0', ']'] =
      some { reg := { space := .sel, index := 0 }, value := none } ∧
    assembleTransfer ['v', '<', '-', 'S', 'E', 'L', '[', '1', ']'] = none := by decide

/-! ### AES round engine -/

/-- R132's check values. -/
theorem test_te : te0 0x00#8 = 0xa56363c6#32 ∧ te1 0x00#8 = 0x6363c6a5#32 ∧ te2 0x00#8 = 0x63c6a563#32 ∧
    te3 0x00#8 = 0xc6a56363#32 ∧ te0 0x53#8 = 0x2cededc1#32 ∧ te0 0x80#8 = 0x4ccdcd81#32 ∧
    te0 0xff#8 = 0x3a16162c#32 := by decide

/-- R137's example and V-EK1, the last word. -/
theorem test_expandKey_zero :
    let w := expandKey fun _ => 0#64
    w.getD 8 0#32 = 0x62636363#32 ∧ w.getD 12 0#32 = 0xaafbfbfb#32 ∧ w.getD 39 0#32 = 0xbdbbaa1e#32 := by
  decide +kernel

/-- V-EK2 (the FIPS-197 A.3 key): the command leaves `w8` and `w39` in `RK`. -/
theorem test_aesExpandKey :
    after (exec .aesExpandKey (one { Context.reset with
        key := (((RegBank.reset 64 4).set 0 0xbe71ca1510eb3d60#64).set 1 0x81777d85f0ae732b#64 |>.set 2
          0xd708613b072c351f#64).set 3 0xf4df1409a310982d#64 } []))
      (fun t => (t.ctx.rk.get 0, t.ctx.rk.get 8, t.ctx.rk.get 39, statusWord t.ctx.status)) =
      some (0x603deb10#32, 0x9ba35411#32, 0x59c58239#32, 2#32) := by decide +kernel

/-- T1. -/
theorem test_aesEncryptBlock :
    outAfter (exec .aesEncryptBlock (one (aesOperands 0x0123456789abcdef#64 0xfedcba9876543210#64 0#64 0#64) [])) =
      some (0xbb69757f1833c1a3#64, 0x94195ca67f338a90#64) := by decide +kernel

/-- T2. -/
theorem test_aesSingleRound :
    outAfter (exec .aesSingleRound
      (one (aesOperands 0x0123456789abcdef#64 0xfedcba9876543210#64 0#64 0x3b9aca00#64) [])) =
      some (0x6443f5555927d88c#64, 0x21ff754e10e42996#64) := by decide +kernel

/-- T3. -/
theorem test_aesSingleRoundHeavy :
    outAfter (exec .aesSingleRoundHeavy
      (one (aesOperands 0x0123456789abcdef#64 0xfedcba9876543210#64 0#64 0x3b9aca00#64) [])) =
      some (0xc963013a2b7ee396#64, 0x025bb10be54f6768#64) := by decide +kernel

/-- V-SH1, in `KOUT`. -/
theorem test_aesSingleRoundHeavy_kout :
    after (exec .aesSingleRoundHeavy (one (aesOperands 0#64 0#64 0#64 0#64) []))
      (fun t => (t.ctx.kout.get 0, t.ctx.kout.get 1)) =
      some (0x060e1e1e16161616#64, 0x57eabbc61b8c8191#64) := by decide +kernel

/-! ### Random-math interpreter -/

/-- V-RM2: `s = d`. -/
theorem test_mul_square : rAfter (exec (.mul 0#8 0#8) (one (regsAre [(0, 0xffffffff#32)]) [])) 0 = some 1#32 := by decide
/-- V-RM3. -/
theorem test_mul_low :
    rAfter (exec (.mul 2#8 7#8) (one (regsAre [(2, 0x12345678#32), (7, 0x9abcdef0#32)]) [])) 2 =
      some 0x242d2080#32 := by decide
/-- V-RM7: `s = d`. -/
theorem test_add_self :
    rAfter (exec (.add 0#8 0#8 5#32) (one (regsAre [(0, 0x80000000#32)]) [])) 0 = some 5#32 := by decide
/-- V-RM10: a double carry. -/
theorem test_add_carries :
    rAfter (exec (.add 2#8 8#8 0xffffffff#32) (one (regsAre [(2, 0xffffffff#32), (8, 0xffffffff#32)]) [])) 2 =
      some 0xfffffffd#32 := by decide
/-- V-RM11. -/
theorem test_sub_borrows :
    rAfter (exec (.sub 0#8 1#8) (one (regsAre [(1, 1#32)]) [])) 0 = some 0xffffffff#32 := by decide
/-- V-RM14. -/
theorem test_sub_unsigned :
    rAfter (exec (.sub 3#8 5#8) (one (regsAre [(3, 0x80000000#32), (5, 1#32)]) [])) 3 = some 0x7fffffff#32 := by decide
/-- V-RM18: 36 mod 32. -/
theorem test_ror_mod :
    rAfter (exec (.ror 0#8 5#8) (one (regsAre [(0, 0x12345678#32), (5, 36#32)]) [])) 0 =
      some 0x81234567#32 := by decide
/-- V-RM20: `s = d`. -/
theorem test_ror_self : rAfter (exec (.ror 1#8 1#8) (one (regsAre [(1, 0x21#32)]) [])) 1 = some 0x80000010#32 := by
  decide
/-- V-RM22: 33 mod 32. -/
theorem test_rol_mod :
    rAfter (exec (.rol 0#8 6#8) (one (regsAre [(0, 0x12345678#32), (6, 33#32)]) [])) 0 =
      some 0x2468acf0#32 := by decide
/-- V-RM25: a shift of 32. -/
theorem test_rol_zero :
    rAfter (exec (.rol 3#8 6#8) (one (regsAre [(3, 0xdeadbeef#32), (6, 32#32)]) [])) 3 = some 0xdeadbeef#32 := by
  decide
/-- V-RM26. -/
theorem test_xor :
    rAfter (exec (.xor 3#8 8#8) (one (regsAre [(3, 0xf0f0f0f0#32), (8, 0xff00ff00#32)]) [])) 3 =
      some 0x0ff00ff0#32 := by decide
/-- P1, V-CMD7: a RET in slot 6. -/
theorem test_ret : statusAfter (step (one (running 6#7 6#64 (regsAre [])) [.turn 0])) = some 0x00060002#32 := by decide
/-- P2, V-CMD5: the instruction in slot 69 meets the cap. -/
theorem test_cap :
    statusAfter (step (one (running 69#7 0x0000000100080001#64 (regsAre [(8, 2#32)])) [])) =
      some 0x00460006#32 := by decide
/-- P3, V-CMD6: an illegal word in slot 1. -/
theorem test_illegal_word :
    statusAfter (step (one (running 1#7 0x0000000000090101#64 (regsAre [])) [.turn 0])) =
      some 0x00010303#32 := by decide

/-! ### Commands, host accesses, reset -/

/-- V-CMD2. -/
theorem test_unassigned_code : statusAfter (step (one .reset [cmdInput 0x00#8])) = some 0x00000503#32 := by decide
/-- R180: `RM_EXEC` leaves the context `BUSY`. -/
theorem test_rmExec : statusAfter (step (one .reset [cmdInput 0x10#8])) = some 1#32 := by decide
/-- V-HF5: the selector of `ST[0] = 0xfd`. -/
theorem test_hfFinalize :
    after (exec .hfFinalize (one { Context.reset with st := (RegBank.reset 64 25).set 0 0xfd#64 } []))
      (fun t => (t.ctx.sel, statusWord t.ctx.status)) = some (1#2, 2#32) := by decide
/-- V-HF5: bytes 192 to 199 of the state whose `ST[24]` is 0x0123456789abcdef. -/
theorem test_stateBytes :
    let m := stateBytes fun k => if k = 24 then 0x0123456789abcdef#64 else 0#64
    m[192] = 0xef#8 ∧ m[195] = 0x89#8 ∧ m[199] = 0x01#8 := by decide +kernel
/-- R66's packing: `d = 00 01 02 ... 1f`. -/
theorem test_digestWord :
    digestWord (Vector.ofFn fun i => BitVec.ofNat 8 i) 0 = 0x0706050403020100#64 ∧
    digestWord (Vector.ofFn fun i => BitVec.ofNat 8 i) 3 = 0x1f1e1d1c1b1a1918#64 := by decide
/-- V-RST1: `STATUS` reads zero after reset. -/
theorem test_reset_status :
    after (step (one .reset [.host 0 (.read .status 0 32)])) (fun t => t.hostData.map HostData.value) =
      some (some 0#64) := by decide
/-- R35, R61: `CMD` reads 0 although it keeps the code of the last command, and `SEL` reads zero-extended. -/
theorem test_read_cmd_sel :
    after (step (one { Context.reset with cmd := 0x20#8 } [.host 0 (.read .cmd 0 8)]))
      (fun t => t.hostData.map HostData.value) = some (some 0#64) ∧
    after (step (one { Context.reset with sel := 3#2 } [.host 0 (.read .sel 0 32)]))
      (fun t => t.hostData.map HostData.value) = some (some 3#64) := by decide
/-- V-RST2: the fetch of an unwritten slot is the model-only fault. -/
theorem test_uninit_slot :
    raisesUninit (one { Context.reset with status := .started } [.turn 0]) = true := by decide
/-- V-RST3: a RET in slot 0 reads no register. -/
theorem test_ret_reads_nothing :
    raisesUninit (one (running 0#7 6#64 .reset) [.turn 0]) = false ∧
    statusAfter (checkedStep (one (running 0#7 6#64 .reset) [.turn 0])) = some 2#32 := by decide
/-- V-EK5: `KEY` never written. -/
theorem test_uninit_key : raisesUninit (one .reset [cmdInput 0x01#8]) = true := by decide
/-- R300: reset in the middle of a run. -/
theorem test_reset_stops_a_run :
    after (step (one (running 3#7 6#64 (regsAre [])) [.reset]))
      (fun t => (statusWord t.ctx.status, t.ctx.pc, t.ctx.r.isWritten 0)) = some (0#32, 0#7, false) := by decide
/-- The first step after reset runs a row's word: ADD of constant 1 to zeros, and a command. -/
theorem test_withFetchWord :
    rAfter (step (State.reset.withFetchWord 64 0x0000000100040001)) 0 = some 1#32 ∧
    statusAfter (step (State.reset.withFetchWord 8 0x10)) = some 1#32 := by decide

/-! ### Witnesses: a concrete state and operands that meet the hypotheses of each statement, clause by clause -/

theorem witness_decodeOfEncode : Instr.wellFormed (.xor 3#8 8#8) = true ∧ Instr.wellFormed .ret = true := by decide

theorem witness_encodeOfDecode :
    decode (.rm64 0x0000000500000001#64) = .ok (.add 0#8 0#8 5#32) ∧ decode (.cmd8 0x20#8) = .ok .hfFinalize := by
  decide

/-- The six clauses: OP 7, OP 6, RSV 1, DST 4, SRC 9, and DST 3 with SRC 8. -/
theorem witness_decodeChecks :
    6 < ((7#64).extractLsb' 0 8).toNat ∧ ((6#64).extractLsb' 0 8).toNat = 6 ∧
    (((0x01000005#64).extractLsb' 0 8).toNat < 6 ∧ (0x01000005#64).extractLsb' 24 8 ≠ 0#8) ∧
    ((0x00000400#64).extractLsb' 24 8 = 0#8 ∧ 3 < ((0x00000400#64).extractLsb' 8 8).toNat) ∧
    (((0x00090300#64).extractLsb' 8 8).toNat ≤ 3 ∧ 8 < ((0x00090300#64).extractLsb' 16 8).toNat) ∧
    (((0x00080305#64).extractLsb' 0 8).toNat < 6 ∧ (0x00080305#64).extractLsb' 24 8 = 0#8 ∧
      ((0x00080305#64).extractLsb' 8 8).toNat ≤ 3 ∧ ((0x00080305#64).extractLsb' 16 8).toNat ≤ 8) := by decide

/-- The three clauses: a RET word, two MUL words that differ above bit 31, an ADD word that decodes. -/
theorem witness_decodeIgnores :
    (0xffffffffffffff06#64).extractLsb' 0 8 = 6#8 ∧
    ((0xffffffff00080300#64).extractLsb' 0 32 = (0x00080300#64).extractLsb' 0 32 ∧
      (0xffffffff00080300#64).extractLsb' 0 8 ∈ [0#8, 2#8, 3#8, 4#8, 5#8]) ∧
    ((0xffffffff00040301#64).extractLsb' 0 8 = 1#8 ∧
      decodeRm 0xffffffff00040301#64 = .ok (.add 3#8 4#8 0xffffffff#32)) := by decide

/-- Codes beside the assigned ones. -/
theorem witness_unassignedCodes :
    ∀ c ∈ [0x00#8, 0x05#8, 0x0f#8, 0x11#8, 0x1f#8, 0x21#8, 0xff#8],
      c ∉ [0x01#8, 0x02#8, 0x03#8, 0x04#8, 0x10#8, 0x20#8] := by decide

theorem witness_assembledLines :
    assemble ['x', 'o', 'r', '\t', 'r', '3', ' ', ',', 'R', '8', ' '] = some (.xor 3#8 8#8) := by decide

theorem witness_transferLines :
    assembleTransfer ['P', 'M', 'E', 'M', '[', '7', '0', ']', '<', '-', '6'] =
      some { reg := { space := .pmem, index := 70 }, value := some 6#64 } := by decide

theorem witness_resetInput : (one (running 3#7 6#64 .reset) [.reset, .turn 0]).inputs = .reset :: [.turn 0] := rfl

/-- A block whose host writes command code `c` to context 1 while context 0 has the turn. -/
def commanding (c : Byte) : State := two .reset .reset [.host 1 (.write .cmd 0 8 (c.setWidth 64))]

/-- That block with context 1 chosen. -/
def chosen (c : Byte) : State :=
  { commanding c with lower := [.reset], ctx := .reset, upper := [] }

/-- That block when the write is taken. -/
def commanded (c : Byte) : State := { chosen c with inputs := [], ctx := { (chosen c).ctx with cmd := c } }

theorem commanding_next (c : Byte) : NextCommand (commanding c) c (commanded c) :=
  .write (t := chosen c) rfl (by simp) rfl rfl

theorem witness_stepRunsTheDecodedCommand :
    NextCommand (commanding 0x20#8) 0x20#8 (commanded 0x20#8) ∧ decodeCmd 0x20#8 = .ok .hfFinalize :=
  ⟨commanding_next _, rfl⟩

theorem witness_unassignedCodeOnlyFaults :
    NextCommand (commanding 0xff#8) 0xff#8 (commanded 0xff#8) ∧
    0xff#8 ∉ [0x01#8, 0x02#8, 0x03#8, 0x04#8, 0x10#8, 0x20#8] :=
  ⟨commanding_next _, by decide⟩

theorem witness_oneStepCommands :
    ∀ i ∈ [Instr.aesExpandKey, .aesEncryptBlock, .aesSingleRound, .aesSingleRoundHeavy, .hfFinalize],
      i ∈ [Instr.aesExpandKey, .aesEncryptBlock, .aesSingleRound, .aesSingleRoundHeavy, .hfFinalize] := by decide

/-- The last register of each space the host may write, and the others it may name. -/
theorem witness_lastRegisters :
    3 < Space.key.entries ∧ 39 < Space.rk.entries ∧ 1 < Space.inp.entries ∧ 1 < Space.rkey.entries ∧
    1 < Space.out.entries ∧ 8 < Space.r.entries ∧ 70 < Space.pmem.entries ∧ 24 < Space.st.entries ∧
    1 < Space.kout.entries ∧ 3 < Space.digest.entries ∧ 0 < Space.sel.entries ∧ 0 < Space.status.entries := by decide

theorem witness_hostReadReturnsTheValueWritten :
    let ins := [Input.host 0 (.write .pmem 70 Space.pmem.width 6#64), .host 0 (.read .pmem 70 Space.pmem.width)]
    (one .reset ins).inputs = .host 0 (.write .pmem 70 Space.pmem.width 6#64) ::
      .host 0 (.read .pmem 70 Space.pmem.width) :: [] ∧
    (one .reset ins).focus 0 = some (one .reset ins) ∧ (one .reset ins).ctx.busy = false ∧
    70 < Space.pmem.entries ∧
    Space.pmem ∈ [Space.key, Space.rk, Space.inp, Space.rkey, Space.out, Space.r, Space.pmem, Space.st] :=
  ⟨rfl, rfl, rfl, by decide, by decide⟩

theorem witness_writesToReadOnlyRegisters :
    let s := one .reset [.host 0 (.write .digest 3 Space.digest.width 7#64)]
    s.inputs = .host 0 (.write .digest 3 Space.digest.width 7#64) :: [] ∧ s.focus 0 = some s ∧ s.ctx.busy = false ∧
    3 < Space.digest.entries ∧ Space.digest ∈ [Space.status, Space.sel, Space.kout, Space.digest] :=
  ⟨rfl, rfl, rfl, by decide, by decide⟩

/-- `STATUS` is read here while a run goes on. -/
theorem witness_statusRead :
    let s := one (running 0#7 6#64 .reset) [.host 0 (.read .status 0 32)]
    s.inputs = .host 0 (.read .status 0 32) :: [] ∧ s.focus 0 = some s :=
  ⟨rfl, rfl⟩

/-- A written register (the last clause of the statement), the last of its space. -/
theorem witness_hostReadHasNoSideEffect :
    let s := one (regsAre []) [.host 0 (.read .r 8 Space.r.width)]
    s.inputs = .host 0 (.read .r 8 Space.r.width) :: [] ∧ s.focus 0 = some s ∧ s.ctx.busy = false ∧
    8 < Space.r.entries ∧ s.ctx.isWritten { space := .r, index := 8 } = true :=
  ⟨rfl, rfl, rfl, by decide, by decide⟩

/-- `PMEM[71]` to read and `R[9]` to write. -/
theorem witness_nonexistentRegister :
    0 < (one .reset []).contexts.length ∧ Space.pmem.entries ≤ 71 ∧ Space.r.entries ≤ 9 ∧
    (one .reset [.host 0 (.read .pmem 71 64)]).inputs = .host 0 (.read .pmem 71 64) :: [] ∧
    (one .reset [.host 0 (.write .r 9 32 0#64)]).inputs = .host 0 (.write .r 9 32 0#64) :: [] :=
  ⟨by decide, by decide, by decide, rfl, rfl⟩

theorem witness_partialAccess :
    0 < (one .reset []).contexts.length ∧ 24 < Space.st.entries ∧ 8 ≠ Space.st.width ∧
    (one .reset [.host 0 (.read .st 24 8)]).inputs = .host 0 (.read .st 24 8) :: [] ∧
    (one .reset [.host 0 (.write .st 24 8 0#64)]).inputs = .host 0 (.write .st 24 8 0#64) :: [] :=
  ⟨by decide, by decide, by decide, rfl, rfl⟩

/-- A host write of `R[0]` waiting while a run is at slot `pc`. -/
def holding (pc : BitVec 7) (w : W64) : State :=
  one (running pc w (regsAre [])) [.host 0 (.write .r 0 32 0#64)]

/-- The first slot and the last that is fetched. -/
theorem witness_hold :
    (∀ pc ∈ [0#7, 69#7],
      (holding pc 0x0000000100080001#64).ctx.busy = true ∧ (holding pc 0x0000000100080001#64).ctx.pc.toNat ≤ 69) ∧
    (HostAccess.write .r 0 32 0#64).refusal = none ∧ (HostAccess.write .r 0 32 0#64).isStatusRead = false ∧
    (holding 69#7 0x0000000100080001#64).inputs = .host 0 (.write .r 0 32 0#64) :: [] ∧
    (holding 69#7 0x0000000100080001#64).focus 0 = some (holding 69#7 0x0000000100080001#64) :=
  ⟨by decide, by decide, by decide, rfl, rfl⟩

theorem witness_sboxArgument : (0xff#8 : Byte) ≠ 0#8 := by decide

theorem witness_quarters : (0 < 4) ∧ (3 < 4) := by decide

/-- The words of the two clauses: 0 and 3 of the key, 8, 12 and 39 of the recurrence. -/
theorem witness_scheduleWords : 3 < 4 ∧ (8 ≤ 8 ∧ 8 < 40 ∧ 8 % 8 = 0) ∧ (8 ≤ 12 ∧ 12 % 8 = 4) ∧ (8 ≤ 39 ∧ 39 < 40) := by
  decide

/-- An RM step in its own turn, in a turn given, and in a hold; each with a word that decodes. -/
theorem witness_stepRunsTheDecodedInstruction :
    NextRm (one (running 69#7 0x00080300#64 (regsAre [])) []) (one (running 69#7 0x00080300#64 (regsAre [])) []) ∧
    NextRm (one (running 0#7 6#64 .reset) [.turn 0]) (one (running 0#7 6#64 .reset) []) ∧
    NextRm (holding 0#7 6#64) (holding 0#7 6#64) ∧
    (running 69#7 0x00080300#64 (regsAre [])).pc.toNat ≤ 69 ∧
    decodeRm ((running 69#7 0x00080300#64 (regsAre [])).pmem.get 69) = .ok (.mul 3#8 8#8) :=
  ⟨.rest rfl rfl, .turn rfl rfl rfl, .held rfl rfl rfl rfl rfl, by decide, by decide⟩

/-- The largest legal indexes. -/
theorem witness_legalIndexes : (3#8 : Byte).toNat ≤ 3 ∧ (8#8 : Byte).toNat ≤ 8 := by decide

/-- An ALU instruction with the largest indexes at the last slot but one and at the last, and its next states. -/
theorem witness_aluInstruction :
    Instr.add 3#8 8#8 5#32 ∈
      [.mul 3#8 8#8, .add 3#8 8#8 5#32, .sub 3#8 8#8, .ror 3#8 8#8, .rol 3#8 8#8, .xor 3#8 8#8] ∧
    (∃ t, exec (.add 3#8 8#8 5#32) (one (running 68#7 6#64 (regsAre [])) []) = .next t) ∧
    (∃ t, exec (.add 3#8 8#8 5#32) (one (running 69#7 6#64 (regsAre [])) []) = .next t) ∧
    (running 68#7 6#64 (regsAre [])).pc.toNat < 69 ∧ (running 69#7 6#64 (regsAre [])).pc.toNat = 69 ∧
    (running 69#7 6#64 (regsAre [])).r.isWritten 3 = true ∧ (running 69#7 6#64 (regsAre [])).r.isWritten 8 = true :=
  ⟨by decide, ⟨_, rfl⟩, ⟨_, rfl⟩, by decide, by decide, by decide, by decide⟩

/-- The smallest illegal indexes, DST 4 and SRC 9. -/
theorem witness_illegalIndexes :
    3 < (4#8 : Byte).toNat ∧ (3#8 : Byte).toNat ≤ 3 ∧ 8 < (9#8 : Byte).toNat ∧
    Instr.mul 4#8 9#8 ∈ [.mul 4#8 9#8, .add 4#8 9#8 0#32, .sub 4#8 9#8, .ror 4#8 9#8, .rol 4#8 9#8, .xor 4#8 9#8] := by
  decide

theorem witness_illegalWord :
    NextRm (one (running 69#7 7#64 .reset) []) (one (running 69#7 7#64 .reset) []) ∧
    (running 69#7 7#64 .reset).pc.toNat ≤ 69 ∧
    decodeRm ((running 69#7 7#64 .reset).pmem.get 69) = .error .illegalOpcode ∧
    (running 69#7 7#64 .reset).pmem.isWritten 69 = true :=
  ⟨.rest rfl rfl, by decide, by decide, by decide⟩

theorem witness_noFetchBeyondTheCap :
    NextRm (one (running 70#7 6#64 .reset) []) (one (running 70#7 6#64 .reset) []) ∧
    70 ≤ (running 70#7 6#64 .reset).pc.toNat :=
  ⟨.rest rfl rfl, by decide⟩

theorem witness_everyRunEnds :
    ∀ pc ∈ [0#7, 69#7],
      (one (running pc 6#64 .reset) []).inputs = [] ∧ (one (running pc 6#64 .reset) []).ctx.busy = true ∧
      (one (running pc 6#64 .reset) []).ctx.pc.toNat ≤ 69 := by decide

/-- A pool with a leased unit, then an idle one. -/
def mixedPool : Pool := [{ leased := true, fed := [] }, { leased := false, fed := [7#8] }]

/-- A block whose pool 0 is `p`. -/
def pooled (p : Pool) : State := { one .reset [] with pool := emptyPools.setIfInBounds 0 p }

/-- One pool with an idle unit and one with none; each finalization completes, with selector 0. -/
theorem witness_finalizeReturns :
    (∃ t, exec .hfFinalize (pooled mixedPool) = .next t ∧ t.ctx.sel = 0#2 ∧
      (∃ u ∈ (pooled mixedPool).poolOf t.ctx.sel, u.leased = false) ∧ (3#2 : BitVec 2) ≠ t.ctx.sel ∧
      1 < ((pooled mixedPool).poolOf t.ctx.sel).length) ∧
    (∃ t, exec .hfFinalize (pooled []) = .next t ∧ ∀ u ∈ (pooled []).poolOf t.ctx.sel, u.leased = true) := by
  refine ⟨⟨_, rfl, ?_⟩, ⟨_, rfl, ?_⟩⟩
  · have h : ((pooled mixedPool).ctx.st.get 0).extractLsb' 0 2 = 0#2 := by decide
    refine ⟨h, ?_⟩
    change (∃ u ∈ (pooled mixedPool).poolOf (((pooled mixedPool).ctx.st.get 0).extractLsb' 0 2), u.leased = false) ∧
      (3#2 : BitVec 2) ≠ ((pooled mixedPool).ctx.st.get 0).extractLsb' 0 2 ∧
      1 < ((pooled mixedPool).poolOf (((pooled mixedPool).ctx.st.get 0).extractLsb' 0 2)).length
    rw [h]
    decide
  · have h : ((pooled []).ctx.st.get 0).extractLsb' 0 2 = 0#2 := by decide
    change ∀ u ∈ (pooled []).poolOf (((pooled []).ctx.st.get 0).extractLsb' 0 2), u.leased = true
    rw [h]
    decide

/-- A place beside the one leased. -/
theorem witness_leaseLeavesOthers : 0 ≠ (mixedPool.lease 0).1 := by decide

/-- A state that meets the invariant, in the middle of a run, and its step. -/
theorem witness_invariant :
    (one (running 69#7 6#64 .reset) []).Inv ∧ ∃ t, step (one (running 69#7 6#64 .reset) []) = .next t := by
  refine ⟨⟨?_, fun k u hu => ?_⟩, ⟨_, rfl⟩⟩
  · intro c hc
    obtain rfl : c = running 69#7 6#64 .reset := by simpa [one, State.contexts] using hc
    constructor <;> simp [running, Status.started]
  · rw [poolOf_of_empty rfl] at hu
    cases hu

/-- An unwritten slot, an unwritten operand, and neither, each in a block with a clean record. -/
theorem witness_uninitRead :
    NextRm (one { Context.reset with status := .started } []) (one { Context.reset with status := .started } []) ∧
    (one { Context.reset with status := .started } []).clean = true ∧
    (one (running 69#7 0x00080300#64 .reset) []).clean = true ∧
    (running 69#7 0x00080300#64 .reset).isWritten { space := .r, index := 8 } = false ∧
    (one (running 69#7 0x00080300#64 (regsAre [])) []).clean = true ∧
    raisesUninit (one (running 69#7 0x00080300#64 .reset) []) = true ∧
    raisesUninit (one (running 69#7 0x00080300#64 (regsAre [])) []) = false :=
  ⟨.rest rfl rfl, by decide, by decide, by decide, by decide, by decide, by decide⟩

theorem witness_uninitReadByCommand :
    (commanding 0x01#8).clean = true ∧ NextCommand (commanding 0x01#8) 0x01#8 (commanded 0x01#8) ∧
    decodeCmd 0x01#8 = .ok .aesExpandKey ∧ { space := .key, index := 3 } ∈ operandsOf .aesExpandKey ∧
    (commanded 0x01#8).ctx.isWritten { space := .key, index := 3 } = false :=
  ⟨by decide, commanding_next _, rfl, by decide, by decide⟩

/-- A reset context whose unwritten `KEY` holds ones. -/
def otherKey : Context := { Context.reset with key := { val := Vector.replicate 4 (~~~0#64), written := Vector.replicate 4 false } }

/-- Two blocks that differ in the values of unwritten registers, and a checked step of the first. -/
theorem witness_checkedSteps :
    (one (running 0#7 6#64 .reset) [.turn 0]).Agree (one (running 0#7 6#64 otherKey) [.turn 0]) ∧
    (∃ t, checkedStep (one (running 0#7 6#64 .reset) [.turn 0]) = .next t) ∧
    otherKey.key.get 0 ≠ Context.reset.key.get 0 := by
  refine ⟨⟨.nil, ?_, .nil, rfl, rfl, rfl, rfl⟩, ⟨_, rfl⟩, by decide⟩
  refine { Context.Agree.refl (running 0#7 6#64 .reset) with key := ⟨rfl, fun i hi => ?_⟩ }
  change (RegBank.reset 64 4).isWritten i = true at hi
  rw [RegBank.isWritten_reset] at hi
  cases hi

/-- A host access, a turn, and no input; each step answers. -/
theorem witness_oneContext :
    (two .reset .reset [.host 1 (.read .status 0 32)]).inputs = .host 1 (.read .status 0 32) :: [] ∧
    (∃ t, step (two .reset .reset [.host 1 (.read .status 0 32)]) = .next t) ∧
    (two .reset .reset [.turn 1]).inputs = .turn 1 :: [] ∧ (∃ t, step (two .reset .reset [.turn 1]) = .next t) ∧
    ((two .reset .reset []).inputs = [] ∧ 0 = (two .reset .reset []).ctxId) ∧
    (∃ t, step (two .reset .reset []) = .next t) :=
  ⟨rfl, ⟨_, rfl⟩, rfl, ⟨_, rfl⟩, ⟨rfl, rfl⟩, ⟨_, rfl⟩⟩

/-- Two blocks with the same context 1 and different contexts 0. -/
theorem witness_dependsOnItAlone :
    (two .reset .reset [.host 1 (.read .status 0 32)]).contexts[1]? =
      (two (regsAre []) .reset [.host 1 (.read .status 0 32), .reset]).contexts[1]? ∧
    (two .reset .reset [.host 1 (.read .status 0 32)]).hostData =
      (two (regsAre []) .reset [.host 1 (.read .status 0 32), .reset]).hostData ∧
    (two .reset .reset [.host 1 (.read .status 0 32)]).contexts[0]? ≠
      (two (regsAre []) .reset [.host 1 (.read .status 0 32), .reset]).contexts[0]? :=
  ⟨rfl, rfl, fun h => absurd (congrArg (Option.map fun c => c.r.isWritten 0) h) (by decide)⟩

/-- A host write of `OUT`, which is not one of the spaces named, and an index above the destinations. -/
theorem witness_onlyHostWrites :
    let s := one (regsAre []) [.host 0 (.write .out 1 64 5#64)]
    (∃ t, step s = .next t ∧ t.contexts[0]? = some t.ctx) ∧ (∀ rest, s.inputs ≠ .reset :: rest) ∧
    (∀ k sp i b v rest c, s.inputs = .host k (.write sp i b v) :: rest → s.contexts[k]? = some c → c.busy = false →
      sp ∉ [Space.key, Space.inp, Space.rkey, Space.st, Space.pmem, Space.r]) ∧
    s.contexts[0]? = some s.ctx ∧ 4 ≤ 8 := by
  refine ⟨⟨_, rfl, rfl⟩, fun _ h => (by cases h), fun k sp i b v rest c h _ _ => ?_, rfl, by decide⟩
  cases h
  decide

/-- A host write of `R[0]` that holds while its context is `BUSY`. -/
theorem witness_onlyHostWrites_held :
    let s := holding 0#7 6#64
    (∃ t, step s = .next t) ∧ (∀ rest, s.inputs ≠ .reset :: rest) ∧
    (∀ k sp i b v rest c, s.inputs = .host k (.write sp i b v) :: rest → s.contexts[k]? = some c → c.busy = false →
      sp ∉ [Space.key, Space.inp, Space.rkey, Space.st, Space.pmem, Space.r]) := by
  refine ⟨⟨_, rfl⟩, fun _ h => (by cases h), fun k sp i b v rest c h hc hb => ?_⟩
  cases h
  cases hc
  exact absurd hb (by decide)

/-- A write of the last slot of `PMEM`, a neighbour of it and a register of another space. -/
theorem witness_hostWriteChangesOneRegister :
    let s := one .reset [.host 0 (.write .pmem 70 Space.pmem.width 6#64)]
    s.inputs = .host 0 (.write .pmem 70 Space.pmem.width 6#64) :: [] ∧ s.focus 0 = some s ∧ s.ctx.busy = false ∧
    70 < Space.pmem.entries ∧
    Space.pmem ∈ [Space.key, Space.rk, Space.inp, Space.rkey, Space.out, Space.r, Space.pmem, Space.st] ∧
    ({ space := .pmem, index := 69 } : RegRef) ≠ { space := .pmem, index := 70 } ∧
    ({ space := .key, index := 0 } : RegRef) ≠ { space := .pmem, index := 70 } :=
  ⟨rfl, rfl, rfl, by decide, by decide, by decide, by decide⟩

/-- A context with a record, and a reset, the step that clears the most. -/
theorem witness_noStepClearsTheFaultRecord :
    let u : UninitRead := { reg := { space := .key, index := 0 }, slot := 0#7 }
    let s := one { Context.reset with uninit := some u } [.reset]
    (∃ t, step s = .next t) ∧ s.contexts[0]? = some s.ctx ∧ s.ctx.uninit = some u :=
  ⟨⟨_, rfl⟩, rfl, rfl⟩

/-- The largest indexes, and the largest constant in either notation. -/
theorem witness_spellings :
    (3#8 : Byte).toNat ≤ 3 ∧ (8#8 : Byte).toNat ≤ 8 ∧
    ([4, 2, 9, 4, 9, 6, 7, 2, 9, 5] : List Nat) ≠ [] ∧ (∀ n ∈ ([4, 2, 9, 4, 9, 6, 7, 2, 9, 5] : List Nat), n < 10) ∧
    Nat.ofDigits 10 ([4, 2, 9, 4, 9, 6, 7, 2, 9, 5] : List Nat).reverse < 2 ^ 32 ∧
    (∀ n ∈ List.replicate 8 15, n < 16) ∧ Nat.ofDigits 16 (List.replicate 8 15).reverse < 2 ^ 32 ∧
    ['R', 'e', 't'].map Char.toUpper = ['r', 'E', 'T'].map Char.toUpper := by decide

/-- No input, and a turn given to context 1. -/
theorem witness_idleStep :
    ((two .reset .reset []).inputs = [] ∧ (two .reset .reset []).ctx.busy = false) ∧
    ((two .reset .reset [.turn 1]).inputs = .turn 1 :: [] ∧
      (two .reset .reset [.turn 1]).contexts[1]? = some .reset ∧ Context.reset.busy = false) :=
  ⟨⟨rfl, rfl⟩, rfl, rfl, rfl⟩

end Sys2Proof.Tests
end

section
/-! PROOF. The block view of two words and its inverse (R11, R63, R67). -/

namespace Sys2Proof.Machine

/-- The words of a block view are the words it was made from: each word is the little-endian word of its bytes. -/
theorem w2_b16 (a b : W64) : w2 (b16 a b) = (a, b) := by
  have low : wordLe (fun i => (b16 a b).at i) = wordLe (byteOf a) :=
    wordLe_congr fun i hi => by simp [b16_at a b i (by omega), hi]
  have high : wordLe (fun i => (b16 a b).at (8 + i)) = wordLe (byteOf b) :=
    wordLe_congr fun i hi => by simp [b16_at a b (8 + i) (by omega)]
  rw [w2, low, high, wordLe_byteOf, wordLe_byteOf]

/-- A block is the block view of its two words: bytes 0 to 7 stand in the first word, bytes 8 to 15 in the second. -/
theorem b16_w2 (s : Block) : b16 (w2 s).1 (w2 s).2 = s := by
  apply Block.ext_at
  intro i hi
  rw [b16_at _ _ i hi, w2]
  split
  case isTrue h => exact byteOf_wordLe _ i h
  case isFalse h => rw [byteOf_wordLe _ (i - 8) (by omega), Nat.add_sub_cancel' (by omega)]

/-- Settles O24: each round trip is the one between a word and its bytes, taken word by word. -/
theorem blockViewRoundTrips : Obligations.BlockViewRoundTrips := ⟨w2_b16, b16_w2⟩

end Sys2Proof.Machine
end

section
/-! PROOF. The block a step starts from, and the contexts and pools a step leaves alone (R75, R195, R230). -/

namespace Sys2Proof.Machine

/-- An RM step starts from the block itself but for whose turn it is and for a turn taken from the inputs. -/
theorem NextRm.frame {s u : State} (h : NextRm s u) :
    u.contexts = s.contexts ∧ u.pool = s.pool ∧ u.hostData = s.hostData ∧ u.leases = s.leases := by
  cases h with
  | rest hi hb => exact ⟨rfl, rfl, rfl, rfl⟩
  | turn hi hf hb | held hi hf hr hb hs =>
    obtain ⟨hc, -, -, hp, -, hh, hl⟩ := State.focus_spec hf
    exact ⟨hc, hp, hh, hl⟩

/-- A command starts from a context that is not `BUSY`, with its code in `CMD` and all else as it was. -/
theorem NextCommand.frame {s u : State} {c : Byte} (h : NextCommand s c u) :
    ∃ x, s.contexts[u.ctxId]? = some x ∧ x.busy = false ∧ u.ctx = { x with cmd := c } ∧
      u.contexts = s.contexts.set u.ctxId { x with cmd := c } ∧ u.pool = s.pool := by
  cases h with
  | @write k v rest t hi hc hf hb =>
    obtain ⟨hcs, rfl, hx, hp, -⟩ := State.focus_spec hf
    refine ⟨t.ctx, hx, hb, rfl, ?_, hp⟩
    rw [← hcs]
    exact State.contexts_with_ctx t _

theorem State.mem_contexts {s : State} {c : Context} :
    c ∈ s.contexts ↔ c ∈ s.lower ∨ c = s.ctx ∨ c ∈ s.upper := by
  simp [State.contexts]

/-- Where the moving context alone changes, every entry is the old one or that of the moving context. -/
theorem State.getElem?_contexts_of_frame {u t : State} (hl : t.lower = u.lower) (hu : t.upper = u.upper) {k : Nat}
    {c c' : Context} (hc : u.contexts[k]? = some c) (hc' : t.contexts[k]? = some c') :
    c' = c ∨ c = u.ctx ∧ c' = t.ctx := by
  rw [State.contexts_of_frame hl hu] at hc'
  by_cases hk : u.ctxId = k
  case pos =>
    subst hk
    rw [State.contexts_ctxId] at hc
    rw [List.getElem?_set_self (List.getElem?_eq_some_iff.mp (State.contexts_ctxId u)).1] at hc'
    exact .inr ⟨(Option.some.inj hc).symm, (Option.some.inj hc').symm⟩
  case neg =>
    rw [List.getElem?_set_ne hk, hc] at hc'
    exact .inl (Option.some.inj hc').symm

/-- What holds of every context holds afterwards where the moving context alone changes and still meets it. -/
theorem State.forall_contexts_of_frame {P : Context → Prop} {s t : State} (h : ∀ c ∈ s.contexts, P c)
    (hl : t.lower = s.lower) (hu : t.upper = s.upper) (hc : P t.ctx) : ∀ c ∈ t.contexts, P c := by
  intro c hmem
  rw [State.mem_contexts, hl, hu] at hmem
  obtain hmem | rfl | hmem := hmem
  · exact h c (State.mem_contexts.mpr (.inl hmem))
  · exact hc
  · exact h c (State.mem_contexts.mpr (.inr (.inr hmem)))

/-- What holds of every context and does not speak of `CMD` holds in the block in which a command starts. -/
theorem NextCommand.forall_contexts {P : Context → Prop} {s u : State} {c : Byte} (hn : NextCommand s c u)
    (h : ∀ x ∈ s.contexts, P x) (hP : ∀ x, P x → P { x with cmd := c }) : ∀ x ∈ u.contexts, P x := by
  obtain ⟨y, hy, -, -, hcs, -⟩ := hn.frame
  intro x hx
  rw [hcs] at hx
  obtain hx | rfl := List.mem_or_eq_of_mem_set hx
  · exact h x hx
  · exact hP y (h y (List.mem_of_getElem? hy))

theorem poolOf_congr {s t : State} (h : t.pool = s.pool) (k : BitVec 2) : t.poolOf k = s.poolOf k := by
  rw [State.poolOf, State.poolOf, h]

end Sys2Proof.Machine
end

section
/-! PROOF. The one-step commands of the AESU and the HFU, said once: each starts, reads its operands, writes result
registers alone and is `DONE` (R37, R74, R137 to R140, R230). -/

namespace Sys2Proof.Machine

/-- The commands that end in the step that starts them: all but `RM_EXEC` (R37). -/
def oneStepCommands : List Instr :=
  [.aesExpandKey, .aesEncryptBlock, .aesSingleRound, .aesSingleRoundHeavy, .hfFinalize]

/-- What a one-step command writes of its context (R137 to R140, R230); `exec_command` ties it to `exec`. -/
def commandEffect : Instr → Context → Context
  | .aesExpandKey, c => { c with rk := .filled 40 fun i => (expandKey c.key.get).getD i 0#32 }
  | .aesEncryptBlock, c => { c with out := .pair (encryptBlock c.rk.get (c.inp.get 0) (c.inp.get 1)) }
  | .aesSingleRound, c =>
    { c with out := .pair (singleRound (c.inp.get 0) (c.inp.get 1) (c.rkey.get 0) (c.rkey.get 1)) }
  | .aesSingleRoundHeavy, c =>
    { c with
      out := .pair (singleRoundHeavy (c.inp.get 0) (c.inp.get 1) (c.rkey.get 0) (c.rkey.get 1))
      kout := .pair (singleRoundHeavy (c.inp.get 0) (c.inp.get 1) (c.rkey.get 0) (c.rkey.get 1)) }
  | .hfFinalize, c =>
    { c with
      sel := (c.st.get 0).extractLsb' 0 2
      digest := .filled 4 (digestWord (hashOf ((c.st.get 0).extractLsb' 0 2) (stateBytes c.st.get))) }
  | _, c => c

/-- The AESU commands have one shape. -/
theorem exec_aesu {i : Instr} (hi : i ∈ [.aesExpandKey, .aesEncryptBlock, .aesSingleRound, .aesSingleRoundHeavy])
    (s : State) : exec i s = runCommand (operandsOf i) (commandEffect i) s := by
  simp only [List.mem_cons, List.not_mem_nil, or_false] at hi
  obtain rfl | rfl | rfl | rfl := hi <;> rfl

/-- A one-step command completes: it starts, notes the reads of its operands, writes its results and is `DONE`. -/
theorem exec_command {i : Instr} (hi : i ∈ oneStepCommands) (s : State) :
    ∃ t, exec i s = .next t ∧
      t.ctx = (commandEffect i (s.ctx.start.noteReads 0#7 (operandsOf i))).finish := by
  obtain hi | hi := List.mem_append.mp (show i ∈ [_, _, _, _] ++ [.hfFinalize] from hi)
  case inl => exact ⟨_, exec_aesu hi s, rfl⟩
  case inr =>
    obtain rfl := List.mem_singleton.mp hi
    refine ⟨_, execHfFinalize_eq s, ?_⟩
    simp only [commandEffect, operandsOf, Context.noteReads_st, Context.start_st]

/-- A one-step command writes `RK`, `OUT`, `KOUT`, `SEL` and `DIGEST` at most. -/
theorem commandEffect_eq (i : Instr) (c : Context) :
    commandEffect i c =
      { c with
        rk := (commandEffect i c).rk, out := (commandEffect i c).out, kout := (commandEffect i c).kout
        sel := (commandEffect i c).sel, digest := (commandEffect i c).digest } := by
  cases i <;> simp only [commandEffect]

section Frame

variable (i : Instr) (c : Context)

@[simp] theorem commandEffect_key : (commandEffect i c).key = c.key := by rw [commandEffect_eq]
@[simp] theorem commandEffect_inp : (commandEffect i c).inp = c.inp := by rw [commandEffect_eq]
@[simp] theorem commandEffect_rkey : (commandEffect i c).rkey = c.rkey := by rw [commandEffect_eq]
@[simp] theorem commandEffect_r : (commandEffect i c).r = c.r := by rw [commandEffect_eq]
@[simp] theorem commandEffect_pmem : (commandEffect i c).pmem = c.pmem := by rw [commandEffect_eq]
@[simp] theorem commandEffect_pc : (commandEffect i c).pc = c.pc := by rw [commandEffect_eq]
@[simp] theorem commandEffect_st : (commandEffect i c).st = c.st := by rw [commandEffect_eq]
@[simp] theorem commandEffect_status : (commandEffect i c).status = c.status := by rw [commandEffect_eq]
@[simp] theorem commandEffect_uninit : (commandEffect i c).uninit = c.uninit := by rw [commandEffect_eq]

end Frame

/-- What makes an ALU instruction well-formed: its two indexes (R97, R98). -/
theorem wellFormed_of_aluOf {i : Instr} {d r : Byte} {f : W32 → W32 → W32} (ha : aluOf i = some (d, r, f)) :
    i.wellFormed = (dstLegal d && srcLegal r) := by
  cases i <;> simp [aluOf] at ha <;> obtain ⟨rfl, rfl, -⟩ := ha <;> rfl

/-- A decoded word is an instruction of the block (R101). -/
theorem wellFormed_of_decodeRm {w : W64} {i : Instr} (h : decodeRm w = .ok i) : i.wellFormed = true := by
  obtain rfl | ⟨d, r, f, ha, hd, hr⟩ := decodeRm_ok h
  · rfl
  · rw [wellFormed_of_aluOf ha, hd, hr, Bool.and_self]

/-- A decoded command is an instruction of the block (R93). -/
theorem wellFormed_of_decodeCmd {b : Byte} {i : Instr} (h : decodeCmd b = .ok i) : i.wellFormed = true := by
  have hi := decodeCmd_ok h
  simp only [List.mem_cons, List.not_mem_nil, or_false] at hi
  obtain rfl | rfl | rfl | rfl | rfl | rfl := hi <;> rfl

/-- A well-formed ALU instruction completes and changes the moving context alone (R184, R195). -/
theorem exec_alu {i : Instr} {d r : Byte} {f : W32 → W32 → W32} (ha : aluOf i = some (d, r, f))
    (hi : i.wellFormed = true) (s : State) : exec i s = .next (s.mapCtx (aluEffect d r f)) := by
  obtain ⟨hd, hr⟩ : dstLegal d = true ∧ srcLegal r = true := by simpa [wellFormed_of_aluOf ha] using hi
  rw [exec_of_aluOf ha, aluStep_legal f s hd hr]

/-- Every command or instruction is an ALU instruction, a one-step command, `RM_EXEC` or RET. -/
theorem instr_cases (i : Instr) :
    (∃ d r f, aluOf i = some (d, r, f)) ∨ i ∈ oneStepCommands ∨ i = .rmExec ∨ i = .ret := by
  cases i <;> simp [aluOf, oneStepCommands]

/-- A command is a one-step command or `RM_EXEC` (R37, R91). -/
theorem command_cases {b : Byte} {i : Instr} (h : decodeCmd b = .ok i) : i ∈ oneStepCommands ∨ i = .rmExec := by
  have hi := decodeCmd_ok h
  simp only [oneStepCommands, List.mem_cons, List.not_mem_nil, or_false] at hi ⊢
  tauto

/-- Every command or instruction answers a next state: the faults of R260 are next states too. -/
theorem exec_completes (i : Instr) (s : State) : ∃ t, exec i s = .next t := by
  obtain ⟨d, r, f, ha⟩ | hc | rfl | rfl := instr_cases i
  · rw [exec_of_aluOf ha, aluStep]
    split
    · exact ⟨_, rfl⟩
    · split <;> exact ⟨_, rfl⟩
  · obtain ⟨t, ht, -⟩ := exec_command hc s
    exact ⟨t, ht⟩
  · exact ⟨_, rfl⟩
  · exact ⟨_, rfl⟩

/-- `HF_FINALIZE` alone uses the pools (R195, R230). -/
theorem exec_pool {i : Instr} {s t : State} (h : exec i s = .next t) (hi : i ≠ .hfFinalize) :
    t.pool = s.pool ∧ t.leases = s.leases := by
  cases ha : aluOf i with
  | some p =>
    obtain ⟨d, r, f⟩ := p
    rw [exec_of_aluOf ha] at h
    unfold aluStep at h
    split at h
    · cases h; exact ⟨rfl, rfl⟩
    · split at h <;> (cases h; exact ⟨rfl, rfl⟩)
  | none =>
    cases i <;> simp only [aluOf, reduceCtorEq] at ha
    case hfFinalize => exact absurd rfl hi
    all_goals cases h; exact ⟨rfl, rfl⟩

section HostWrite

variable (c : Context) (x : RegRef) (v : W64)

/-! A host write touches neither the control state nor the record (R70). -/

@[simp] theorem Context.hostWrite_pc : (c.hostWrite x v).pc = c.pc := by unfold Context.hostWrite; split <;> rfl
@[simp] theorem Context.hostWrite_sel : (c.hostWrite x v).sel = c.sel := by unfold Context.hostWrite; split <;> rfl
@[simp] theorem Context.hostWrite_cmd : (c.hostWrite x v).cmd = c.cmd := by unfold Context.hostWrite; split <;> rfl
@[simp] theorem Context.hostWrite_status : (c.hostWrite x v).status = c.status := by
  unfold Context.hostWrite; split <;> rfl
@[simp] theorem Context.hostWrite_uninit : (c.hostWrite x v).uninit = c.uninit := by
  unfold Context.hostWrite; split <;> rfl

end HostWrite

end Sys2Proof.Machine
end

section
/-! PROOF. Every step keeps the invariant (R31, R36 to R40, R182, R239, R263). -/

namespace Sys2Proof.Machine

/-- The invariant of a context is one of `PC` and `STATUS`. -/
theorem Context.Inv.congr {c d : Context} (h : c.Inv) (hp : d.pc = c.pc) (hs : d.status = c.status) : d.Inv := by
  obtain ⟨_, _, _, _, _, _, _, _⟩ := h
  constructor <;> simp only [hp, hs] <;> assumption

/-! The four forms that `STATUS` takes. -/

theorem Context.afterReset_inv (c : Context) : c.afterReset.Inv := by
  constructor <;> simp [Context.afterReset, Context.reset, Status.reset]

/-- A run in progress at a slot that is fetched (R37, R182). -/
theorem Context.inv_of_started {c : Context} (hs : c.status = .started) (hp : c.pc.toNat ≤ 69) : c.Inv := by
  have hp70 : c.pc.toNat ≤ 70 := by omega
  constructor <;> simp [hs, Status.started, hp, hp70]

/-- A command that has ended, with the cap only at slot 70 (R37 to R40, R186). -/
theorem Context.inv_of_done {c : Context} {cap : Bool} {fpc : BitVec 7} (hs : c.status = ⟨.done, cap, .none, fpc⟩)
    (hp : c.pc.toNat ≤ 70) (hf : fpc.toNat ≤ 70) (hcap : cap = true → fpc = 70#7) : c.Inv := by
  constructor <;> simp [hs, hp, hf]
  exact hcap

/-- A fault with one of the causes of R261 and a slot (R262). -/
theorem Context.inv_of_faulted {c : Context} {e : Cause} {fpc : BitVec 7} (hs : c.status = .faulted e fpc)
    (hp : c.pc.toNat ≤ 70) (hf : fpc.toNat ≤ 70) (h0 : e ≠ .none) (hu : e ≠ .uninitRead) : c.Inv := by
  constructor <;> simp [hs, Status.faulted, hp, hf, h0, hu]

/-- A running context shows no cause and no cap. -/
theorem Context.Inv.status_of_busy {c : Context} (h : c.Inv) (hb : c.busy = true) : c.status = .started := by
  have hs : c.status.state = .busy := by simpa [Context.busy] using hb
  have hcause : c.status.cause = .none := by
    by_contra hc
    simp [h.cause_iff.mp hc] at hs
  have hcap : c.status.cap = false := by
    by_contra hc
    simp [(h.cap_done (by simpa using hc)).1] at hs
  have hfpc := h.busy_fpc hs
  cases hst : c.status
  simp_all [Status.started]

/-- The end of an instruction keeps the invariant: the run goes on below slot 70 or ends with the cap (R185, R186). -/
theorem Context.advance_inv {c : Context} (hs : c.status = .started) (hp : c.pc.toNat ≤ 69) : c.advance.Inv := by
  have hn := pc_succ_toNat hp
  have hst := c.advance_status
  by_cases hc : c.pc + 1#7 = 70#7
  case pos =>
    rw [if_pos hc, hs] at hst
    exact Context.inv_of_done hst (by rw [Context.advance_pc]; omega) (by decide) fun _ => rfl
  case neg =>
    rw [if_neg hc, hs] at hst
    have : (c.pc + 1#7).toNat ≠ 70 := fun h => hc (BitVec.eq_of_toNat_eq (by rw [h]; rfl))
    exact Context.inv_of_started hst (by rw [Context.advance_pc]; omega)

/-- An RM step of a run keeps the invariant of its context: it ends the run, or goes on below slot 70. -/
theorem rmStep_ctx_inv {s t : State} (h : rmStep s = .next t) (hs : s.ctx.Inv) (hb : s.ctx.busy = true) :
    t.ctx.Inv := by
  have hst : (fetched s).ctx.status = .started := by simpa [fetched] using hs.status_of_busy hb
  obtain ⟨hp, hcases⟩ := rmStep_cases h
  have hp69 : (fetched s).ctx.pc.toNat ≤ 69 := by simpa [fetched] using hp
  have hp70 : (fetched s).ctx.pc.toNat ≤ 70 := by omega
  obtain ⟨i, d, r, f, -, -, -, -, rfl⟩ | ⟨-, rfl⟩ | ⟨e, he, rfl⟩ := hcases
  case inl => exact Context.advance_inv (by simpa using hst) (by simpa using hp69)
  case inr.inl =>
    refine Context.inv_of_done (cap := false) (fpc := (fetched s).ctx.pc) ?_ hp70 hp70 (by simp)
    simp [hst, Status.started]
  case inr.inr =>
    have hcause : e ≠ .none ∧ e ≠ .uninitRead := by obtain rfl | rfl | rfl | rfl := decodeRm_error he <;> decide
    exact Context.inv_of_faulted rfl hp70 hp70 hcause.1 hcause.2

/-- A command keeps the invariant of its context: `RM_EXEC` starts a run at slot 0, every other command is `DONE`. -/
theorem exec_command_ctx_inv {b : Byte} {i : Instr} {s t : State} (hd : decodeCmd b = .ok i)
    (h : exec i s = .next t) (hs : s.ctx.pc.toNat ≤ 70) : t.ctx.Inv := by
  obtain hi | rfl := command_cases hd
  · obtain ⟨t', ht', hctx⟩ := exec_command hi s
    obtain rfl : t' = t := Host.Outcome.next.inj (ht'.symm.trans h)
    exact Context.inv_of_done (cap := false) (fpc := 0#7) (by simp [hctx, Status.started]) (by simpa [hctx] using hs)
      (by decide) (by simp)
  · cases h
    exact Context.inv_of_started rfl (Nat.zero_le 69)

/-- `HF_FINALIZE` returns the unit it leases, so that none stays leased (R239). -/
theorem finalizeIn_idle {k : BitVec 2} {pick : Nat} {m : List Byte} {p : Pool} (h : ∀ u ∈ p, u.leased = false) :
    ∀ u ∈ (finalizeIn k pick m p).2, u.leased = false := by
  intro u hu
  obtain ⟨j, -, -, -, hp⟩ | ⟨-, hp⟩ := finalizeIn_pool k pick m p
  case inl =>
    rw [hp] at hu
    obtain hu | rfl := List.mem_or_eq_of_mem_set hu
    · exact h u hu
    · rfl
  case inr =>
    rw [hp] at hu
    obtain hu | hu := List.mem_append.mp hu
    · exact h u hu
    · rw [List.mem_singleton.mp hu]

/-- A pool after one pool of the block was replaced. -/
theorem poolOf_set {s t : State} {k : BitVec 2} {p : Pool} (h : t.pool = s.pool.setIfInBounds k.toNat p)
    (j : BitVec 2) : t.poolOf j = if k = j then p else s.poolOf j := by
  have hj : j.toNat < 4 := j.isLt
  rw [State.poolOf, State.poolOf, h, Vector.getElem?_setIfInBounds]
  by_cases hkj : k = j
  · simp [hkj, hj]
  · have hne : k.toNat ≠ j.toNat := fun h => hkj (BitVec.eq_of_toNat_eq h)
    simp [hkj, hne]

/-- No command or instruction leaves a unit leased (R230, R239). -/
theorem exec_pools_idle {i : Instr} {s t : State} (h : exec i s = .next t)
    (hs : ∀ k : BitVec 2, ∀ u ∈ s.poolOf k, u.leased = false) :
    ∀ k : BitVec 2, ∀ u ∈ t.poolOf k, u.leased = false := by
  intro k
  by_cases hi : i = .hfFinalize
  case pos =>
    subst hi
    obtain rfl := Host.Outcome.next.inj ((execHfFinalize_eq s).symm.trans h)
    rw [poolOf_set rfl]
    split
    · exact finalizeIn_idle (hs _)
    · exact hs k
  case neg =>
    rw [poolOf_congr (exec_pool h hi).1]
    exact hs k

/-- The invariant of a block of which the moving context alone has changed. -/
theorem State.Inv.of_frame {s t : State} (h : s.Inv) (hl : t.lower = s.lower) (hu : t.upper = s.upper)
    (hc : t.ctx.Inv) (hp : ∀ k : BitVec 2, ∀ u ∈ t.poolOf k, u.leased = false) : t.Inv :=
  ⟨State.forall_contexts_of_frame h.ctxs hl hu hc, hp⟩

/-- The invariant speaks of the contexts and the pools alone, not of whose turn it is. -/
theorem State.Inv.of_contexts {s t : State} (h : s.Inv) (hc : t.contexts = s.contexts) (hp : t.pool = s.pool) :
    t.Inv :=
  ⟨by rw [hc]; exact h.ctxs, fun k => by rw [poolOf_congr hp]; exact h.pools k⟩

theorem State.Inv.ctx {s : State} (h : s.Inv) : s.ctx.Inv := h.ctxs _ (State.mem_contexts.mpr (.inr (.inl rfl)))

/-- The block in which a command starts meets the invariant. -/
theorem State.Inv.nextCommand {s u : State} {c : Byte} (h : s.Inv) (hn : NextCommand s c u) : u.Inv := by
  obtain ⟨-, -, -, -, -, hp⟩ := hn.frame
  refine ⟨hn.forall_contexts h.ctxs fun x hx => hx.congr rfl rfl, fun k => ?_⟩
  rw [poolOf_congr hp]
  exact h.pools k

/-- Settles O50, by the cases of a step: each changes the moving context alone, resets the block or passes the turn. -/
theorem everyStepKeepsTheInvariant : Obligations.EveryStepKeepsTheInvariant := by
  intro s t hs h
  obtain ⟨rest, -, rfl⟩ | ⟨u, hn, hr⟩ | ⟨c, u, i, hn, hd, he⟩ | ⟨c, u, e, hn, hd, rfl⟩ |
    ⟨k, sp, i, b, rest, u, -, hf, -, -, rfl⟩ | ⟨k, sp, i, b, v, rest, u, -, hf, -, -, -, rfl⟩ |
    ⟨k, rest, -, hf, -⟩ | ⟨-, -, rfl⟩ := step_cases h
  · -- reset
    refine ⟨fun c hc => ?_, fun k => by rw [poolOf_of_empty rfl]; simp⟩
    rw [resetBlock_contexts] at hc
    obtain ⟨d, -, rfl⟩ := List.mem_map.mp hc
    exact d.afterReset_inv
  · -- RM step
    obtain ⟨hcs, hp, -, -⟩ := hn.frame
    have hu := hs.of_contexts hcs hp
    obtain ⟨hl, hup, -, -, hpool, -⟩ := rmStep_frame hr
    exact hu.of_frame hl hup (rmStep_ctx_inv hr hu.ctx hn.busy) fun k => by rw [poolOf_congr hpool]; exact hu.pools k
  · -- command
    have hu := hs.nextCommand hn
    obtain ⟨hl, hup, -, -⟩ := exec_frame he
    exact hu.of_frame hl hup (exec_command_ctx_inv hd he hu.ctx.pc_le) (exec_pools_idle he hu.pools)
  · -- unassigned command code
    have hu := hs.nextCommand hn
    obtain rfl := decodeCmd_error hd
    exact hu.of_frame rfl rfl (Context.inv_of_faulted rfl hu.ctx.pc_le (by decide) (by decide) (by decide)) hu.pools
  · -- host read
    obtain ⟨hcs, -, -, hp, -⟩ := State.focus_spec hf
    have hu := hs.of_contexts hcs hp
    exact hu.of_frame rfl rfl (hu.ctx.congr (by simp [hostRead]) (by simp [hostRead])) hu.pools
  · -- host write
    obtain ⟨hcs, -, -, hp, -⟩ := State.focus_spec hf
    have hu := hs.of_contexts hcs hp
    exact hu.of_frame rfl rfl (hu.ctx.congr (by simp) (by simp)) hu.pools
  · -- idle turn
    obtain ⟨hcs, -, -, hp, -⟩ := State.focus_spec hf
    exact hs.of_contexts hcs hp
  · -- turn passed
    obtain ⟨hcs, -, hp, -⟩ := s.passTurn_spec
    exact hs.of_contexts hcs hp

end Sys2Proof.Machine
end

section
/-! PROOF. When the model-only `UNINIT_READ` is raised (R43, R182, R184, R263, R264). -/

namespace Sys2Proof.Machine

/-- The record is clear after a command or instruction exactly where it was and every operand is written (R263). -/
theorem exec_uninit_none {i : Instr} {s t : State} (h : exec i s = .next t) (hi : i.wellFormed = true) :
    t.ctx.uninit = none ↔ s.ctx.uninit = none ∧ ∀ x ∈ operandsOf i, s.ctx.isWritten x = true := by
  obtain ⟨d, r, f, ha⟩ | hc | rfl | rfl := instr_cases i
  · obtain rfl := Host.Outcome.next.inj ((exec_alu ha hi s).symm.trans h)
    rw [State.mapCtx_ctx, aluEffect, Context.advance_uninit, operandsOf_of_aluOf ha]
    exact Context.noteReads_uninit_none _ _ _
  · obtain ⟨t', ht', hctx⟩ := exec_command hc s
    obtain rfl : t' = t := Host.Outcome.next.inj (ht'.symm.trans h)
    rw [hctx, Context.finish_uninit, commandEffect_uninit]
    exact Context.noteReads_uninit_none _ _ _
  all_goals
    cases h
    simp [operandsOf]

theorem State.clean_iff {s : State} : s.clean = true ↔ ∀ c ∈ s.contexts, c.uninit = none := by
  simp [State.clean]

theorem State.clean_congr_contexts {s t : State} (h : t.contexts = s.contexts) : t.clean = s.clean := by
  rw [State.clean, State.clean, h]

theorem State.uninit_of_clean {s : State} (h : s.clean = true) : s.ctx.uninit = none :=
  State.clean_iff.mp h _ (State.mem_contexts.mpr (.inr (.inl rfl)))

/-- Where the moving context alone changes, the block's record stays clean as long as that context's does. -/
theorem State.clean_of_frame {s t : State} (hs : s.clean = true) (hl : t.lower = s.lower) (hu : t.upper = s.upper) :
    t.clean = true ↔ t.ctx.uninit = none := by
  refine ⟨State.uninit_of_clean, fun hc => State.clean_iff.mpr ?_⟩
  exact State.forall_contexts_of_frame (State.clean_iff.mp hs) hl hu hc

/-- The checked step of a step that answers raises `UNINIT_READ` exactly where a record is set (R263). -/
theorem checkedStep_eq_uninitRead {s t : State} (h : step s = .next t) :
    checkedStep s = .fault .uninitRead ↔ ¬ t.clean = true := by
  cases hc : t.clean <;> simp [checkedStep, h, hc]

/-- Choosing the block in which a command starts changes no record. -/
theorem NextCommand.clean {s u : State} {c : Byte} (h : NextCommand s c u) (hs : s.clean = true) : u.clean = true :=
  State.clean_iff.mpr (h.forall_contexts (State.clean_iff.mp hs) fun _ hx => hx)

/-- The record is clear after a fetch exactly where it was and the slot is written (R182). -/
theorem fetched_uninit_none (s : State) :
    (fetched s).ctx.uninit = none ↔ s.ctx.uninit = none ∧ s.ctx.pmem.isWritten s.ctx.pc.toNat = true := by
  rw [fetched, State.mapCtx_ctx, Context.noteReads_uninit_none]
  simp [Context.isWritten]

/-- The record is clear after an RM step exactly where it was, the slot is written, and so are the operands of the
word if it decodes (R182, R184, R264). -/
theorem rmStep_uninit_none {s t : State} (h : rmStep s = .next t) :
    t.ctx.uninit = none ↔
      s.ctx.uninit = none ∧ s.ctx.pmem.isWritten s.ctx.pc.toNat = true ∧
        ∀ i, decodeRm (s.ctx.pmem.get s.ctx.pc.toNat) = .ok i → ∀ x ∈ operandsOf i, s.ctx.isWritten x = true := by
  have hp := (rmStep_cases h).1
  cases hd : decodeRm (s.ctx.pmem.get s.ctx.pc.toNat) with
  | error e =>
    obtain rfl := Host.Outcome.next.inj ((rmStep_of_error hp hd).symm.trans h)
    simpa [raiseRm, raiseFault] using fetched_uninit_none s
  | ok i =>
    rw [exec_uninit_none ((rmStep_of_ok hp hd).symm.trans h) (wellFormed_of_decodeRm hd), fetched_uninit_none]
    simp [fetched, and_assoc]

/-- Settles O51: the step is an RM step that answers, and its record is clear unless it reads what is unwritten. -/
theorem uninitReadIsRaisedByAnRmStepExactly : Obligations.UninitReadIsRaisedByAnRmStepExactly := by
  intro s t hs hn hp
  obtain ⟨u, hr⟩ := rmStep_completes hp
  have ht : t.clean = true := (State.clean_congr_contexts hn.frame.1).trans hs
  obtain ⟨hl, hu, -⟩ := rmStep_frame hr
  rw [checkedStep_eq_uninitRead (hn.step_eq.trans hr), State.clean_of_frame ht hl hu, rmStep_uninit_none hr]
  simp only [State.uninit_of_clean ht, true_and, not_and_or, not_forall, Bool.not_eq_true, exists_prop]

/-- Settles O52: a command answers, and its record is clear unless it reads what is unwritten. -/
theorem uninitReadIsRaisedByACommandExactly : Obligations.UninitReadIsRaisedByACommandExactly := by
  intro s t c i hs hn hd
  have ht := hn.clean hs
  have hstep : step s = exec i t := by rw [hn.step_eq, hd]
  obtain ⟨u, hu⟩ := exec_completes i t
  obtain ⟨hl, hup, -⟩ := exec_frame hu
  rw [checkedStep_eq_uninitRead (hstep.trans hu), State.clean_of_frame ht hl hup,
    exec_uninit_none hu (wellFormed_of_decodeCmd hd)]
  simp only [State.uninit_of_clean ht, true_and, not_forall, Bool.not_eq_true, exists_prop]

end Sys2Proof.Machine
end

section
/-! PROOF. Checked steps do not depend on the values of unwritten registers (R43, R263): two contexts that agree, and
then two blocks that do, still agree after a step whose record is clear. -/

namespace Sys2Proof.Machine

section Contexts

variable {a b : Context}

theorem Context.Agree.busy_eq (h : a.Agree b) : a.busy = b.busy := by rw [Context.busy, Context.busy, h.status]

/-- The record depends on the written bits alone, which agree. -/
theorem Context.Agree.noteReads_agree (h : a.Agree b) (slot : BitVec 7) (xs : List RegRef) :
    (a.noteReads slot xs).Agree (b.noteReads slot xs) := by
  have hu : (a.noteReads slot xs).uninit = (b.noteReads slot xs).uninit := by
    simp only [Context.noteReads, h.uninit, h.isWritten_eq]
    split <;> simp [h.uninit, *]
  rw [Context.noteReads_eq slot xs a, Context.noteReads_eq slot xs b]
  exact { h with uninit := hu }

/-- A host read of a written register returns the same value (R70). -/
theorem Context.Agree.hostValue_eq (h : a.Agree b) {x : RegRef} (hx : a.isWritten x = true) :
    a.hostValue x = b.hostValue x := by
  obtain ⟨sp, i⟩ := x
  cases sp
  case key => exact h.key.val i hx
  case rk => exact congrArg (BitVec.setWidth 64) (h.rk.val i hx)
  case inp => exact h.inp.val i hx
  case rkey => exact h.rkey.val i hx
  case out => exact h.out.val i hx
  case kout => exact h.kout.val i hx
  case r => exact congrArg (BitVec.setWidth 64) (h.r.val i hx)
  case pmem => exact h.pmem.val i hx
  case st => exact h.st.val i hx
  case sel => exact congrArg (BitVec.setWidth 64) h.sel
  case digest => exact h.digest.val i hx
  case cmd => rfl
  case status => exact congrArg (fun st => (statusWord st).setWidth 64) h.status

/-- A host write of the same value keeps two contexts in agreement (R70). -/
theorem Context.Agree.hostWrite (h : a.Agree b) (x : RegRef) (v : W64) :
    (a.hostWrite x v).Agree (b.hostWrite x v) := by
  obtain ⟨sp, i⟩ := x
  cases sp
  case key => exact { h with key := h.key.set i v }
  case rk => exact { h with rk := h.rk.set i _ }
  case inp => exact { h with inp := h.inp.set i v }
  case rkey => exact { h with rkey := h.rkey.set i v }
  case out => exact { h with out := h.out.set i v }
  case r => exact { h with r := h.r.set i _ }
  case pmem => exact { h with pmem := h.pmem.set i v }
  case st => exact { h with st := h.st.set i v }
  all_goals exact h

theorem Context.Agree.afterReset (h : a.Agree b) : a.afterReset.Agree b.afterReset :=
  { Context.Agree.refl .reset with uninit := h.uninit }

theorem forall₂_map_afterReset {l m : List Context} (h : List.Forall₂ Context.Agree l m) :
    List.Forall₂ Context.Agree (l.map Context.afterReset) (m.map Context.afterReset) :=
  List.forall₂_map_left_iff.mpr (List.forall₂_map_right_iff.mpr (h.imp fun _ _ => Context.Agree.afterReset))

/-! Two contexts given the same results still agree. -/

theorem Context.Agree.with_rk (h : a.Agree b) (w : RegBank 32 40) :
    Context.Agree { a with rk := w } { b with rk := w } := { h with rk := .refl w }

theorem Context.Agree.with_out (h : a.Agree b) (w : RegBank 64 2) :
    Context.Agree { a with out := w } { b with out := w } := { h with out := .refl w }

theorem Context.Agree.with_out_kout (h : a.Agree b) (w v : RegBank 64 2) :
    Context.Agree { a with out := w, kout := v } { b with out := w, kout := v } :=
  { h with out := .refl w, kout := .refl v }

theorem Context.Agree.with_sel_digest (h : a.Agree b) (k : BitVec 2) (w : RegBank 64 4) :
    Context.Agree { a with sel := k, digest := w } { b with sel := k, digest := w } :=
  { h with sel := rfl, digest := .refl w }

/-- An ALU instruction with written operands (R184). -/
theorem Context.Agree.aluEffect (h : a.Agree b) {d r : Byte} (f : W32 → W32 → W32)
    (hd : a.r.isWritten d.toNat = true) (hr : a.r.isWritten r.toNat = true) :
    (aluEffect d r f a).Agree (aluEffect d r f b) := by
  have hn := h.noteReads_agree a.pc [{ space := .r, index := d.toNat }, { space := .r, index := r.toNat }]
  rw [Machine.aluEffect, Machine.aluEffect, ← h.pc, ← h.r.val _ hd, ← h.r.val _ hr]
  exact Context.Agree.advance { hn with r := h.r.set _ _ }

end Contexts

/-- The key schedule depends on the four key words alone (R137). -/
theorem expandKey_congr {f g : Nat → W64} (h : ∀ i < 4, f i = g i) : expandKey f = expandKey g := by
  have : keyHalves f = keyHalves g := List.map_congr_left fun i hi => by
    rw [h (i / 2) (by have := List.mem_range.mp hi; omega)]
  rw [expandKey, expandKey, this]

/-- The finalizer's bytes depend on the 25 state words alone (R65). -/
theorem stateBytes_congr {f g : Nat → W64} (h : ∀ i < 25, f i = g i) : stateBytes f = stateBytes g := by
  apply Vector.ext
  intro i hi
  simp only [stateBytes, Vector.getElem_ofFn, h (i / 8) (by omega)]

/-- The operands of the single rounds (R139, R140). -/
theorem Context.Agree.get_inp_rkey {a b : Context} (h : a.Agree b)
    (hw : ∀ x ∈ regs .inp 2 ++ regs .rkey 2, a.isWritten x = true) :
    a.inp.get 0 = b.inp.get 0 ∧ a.inp.get 1 = b.inp.get 1 ∧
      a.rkey.get 0 = b.rkey.get 0 ∧ a.rkey.get 1 = b.rkey.get 1 := by
  obtain ⟨hi, hk⟩ := List.forall_mem_append.mp hw
  exact ⟨h.inp.val 0 (hi ⟨.inp, 0⟩ (by decide)), h.inp.val 1 (hi ⟨.inp, 1⟩ (by decide)),
    h.rkey.val 0 (hk ⟨.rkey, 0⟩ (by decide)), h.rkey.val 1 (hk ⟨.rkey, 1⟩ (by decide))⟩

/-- A one-step command with written operands (R137 to R140, R230). -/
theorem Context.Agree.commandEffect {a b : Context} (h : a.Agree b) (i : Instr)
    (hw : ∀ x ∈ operandsOf i, a.isWritten x = true) : (commandEffect i a).Agree (commandEffect i b) := by
  cases i
  case aesExpandKey =>
    have hk : ∀ i < 4, a.key.get i = b.key.get i := fun i hi => h.key.val i (hw ⟨.key, i⟩ (mem_regs hi))
    simp only [Machine.commandEffect, expandKey_congr hk]
    exact h.with_rk _
  case aesEncryptBlock =>
    obtain ⟨hwi, hwk⟩ := List.forall_mem_append.mp hw
    have hi : ∀ i < 2, a.inp.get i = b.inp.get i := fun i hi => h.inp.val i (hwi ⟨.inp, i⟩ (mem_regs hi))
    have hk : ∀ i < 40, a.rk.get i = b.rk.get i := fun i hi => h.rk.val i (hwk ⟨.rk, i⟩ (mem_regs hi))
    simp only [Machine.commandEffect, encryptBlock, encryptRounds_congr 10 0 _ hk, hi 0 (by decide), hi 1 (by decide)]
    exact h.with_out _
  case aesSingleRound =>
    obtain ⟨hi0, hi1, hk0, hk1⟩ := h.get_inp_rkey hw
    simp only [Machine.commandEffect, hi0, hi1, hk0, hk1]
    exact h.with_out _
  case aesSingleRoundHeavy =>
    obtain ⟨hi0, hi1, hk0, hk1⟩ := h.get_inp_rkey hw
    simp only [Machine.commandEffect, hi0, hi1, hk0, hk1]
    exact h.with_out_kout _ _
  case hfFinalize =>
    have hst : ∀ i < 25, a.st.get i = b.st.get i := fun i hi => h.st.val i (hw ⟨.st, i⟩ (mem_regs hi))
    simp only [Machine.commandEffect, hst 0 (by decide), stateBytes_congr hst]
    exact h.with_sel_digest _ _
  all_goals exact h

section Blocks

variable {s s' t t' u : State}

/-- The moving contexts agree after a command or instruction whose operands are written. -/
theorem exec_ctx_agree {i : Instr} (h : s.Agree s') (hi : i.wellFormed = true)
    (hw : ∀ x ∈ operandsOf i, s.ctx.isWritten x = true) (he : exec i s = .next t) (he' : exec i s' = .next t') :
    t.ctx.Agree t'.ctx := by
  obtain ⟨d, r, f, ha⟩ | hc | rfl | rfl := instr_cases i
  · obtain rfl := Host.Outcome.next.inj ((exec_alu ha hi s).symm.trans he)
    obtain rfl := Host.Outcome.next.inj ((exec_alu ha hi s').symm.trans he')
    rw [operandsOf_of_aluOf ha] at hw
    obtain ⟨hd, hr⟩ := List.forall_mem_cons.mp hw
    have hr := hr _ (List.mem_singleton_self _)
    exact h.ctx.aluEffect f hd hr
  · obtain ⟨v, hv, hctx⟩ := exec_command hc s
    obtain ⟨v', hv', hctx'⟩ := exec_command hc s'
    obtain rfl := Host.Outcome.next.inj (hv.symm.trans he)
    obtain rfl := Host.Outcome.next.inj (hv'.symm.trans he')
    rw [hctx, hctx']
    refine ((h.ctx.start.noteReads_agree _ _).commandEffect i fun x hx => ?_).finish
    simpa using hw x hx
  · cases he
    cases he'
    exact { h.ctx.start with pc := rfl }
  · cases he
    cases he'
    exact { h.ctx with status := by simp [h.ctx.status, h.ctx.pc] }

/-- So do the pools: the bytes that are fed and the selector are the same (R230). -/
theorem exec_pool_agree {i : Instr} (h : s.Agree s') (hw : ∀ x ∈ operandsOf i, s.ctx.isWritten x = true)
    (he : exec i s = .next t) (he' : exec i s' = .next t') : t.pool = t'.pool ∧ t.leases = t'.leases := by
  by_cases hi : i = .hfFinalize
  case pos =>
    subst hi
    obtain rfl := Host.Outcome.next.inj ((execHfFinalize_eq s).symm.trans he)
    obtain rfl := Host.Outcome.next.inj ((execHfFinalize_eq s').symm.trans he')
    have hst : ∀ i < 25, s.ctx.st.get i = s'.ctx.st.get i := fun i hi =>
      h.ctx.st.val i (hw ⟨.st, i⟩ (mem_regs hi))
    simp only [State.poolOf, hst 0 (by decide), stateBytes_congr hst, h.pool, h.leases, and_self]
  case neg =>
    obtain ⟨hp, hl⟩ := exec_pool he hi
    obtain ⟨hp', hl'⟩ := exec_pool he' hi
    exact ⟨by rw [hp, hp', h.pool], by rw [hl, hl', h.leases]⟩

/-- A command or instruction that leaves the record clear is taken in both blocks, which then still agree. -/
theorem State.Agree.exec {i : Instr} (h : s.Agree s') (hi : i.wellFormed = true) (he : exec i s = .next t)
    (hu : t.ctx.uninit = none) : ∃ t', Machine.exec i s' = .next t' ∧ t.Agree t' := by
  have hw := ((exec_uninit_none he hi).mp hu).2
  obtain ⟨t', he'⟩ := exec_completes i s'
  obtain ⟨hl, hup, hin, hh⟩ := exec_frame he
  obtain ⟨hl', hup', hin', hh'⟩ := exec_frame he'
  obtain ⟨hp, hle⟩ := exec_pool_agree h hw he he'
  refine ⟨t', he', ?_, exec_ctx_agree h hi hw he he', ?_, hp, ?_, ?_, hle⟩
  · rw [hl, hl']; exact h.lower
  · rw [hup, hup']; exact h.upper
  · rw [hin, hin']; exact h.inputs
  · rw [hh, hh']; exact h.hostData

theorem State.Agree.fetched (h : s.Agree s') : (fetched s).Agree (fetched s') := by
  have hn := h.ctx.noteReads_agree s.ctx.pc [{ space := .pmem, index := s.ctx.pc.toNat }]
  refine { h with ctx := ?_ }
  simp only [Machine.fetched, State.mapCtx_ctx, ← h.ctx.pc]
  exact hn

theorem State.Agree.raiseFault (h : s.Agree s') (e : Cause) (fpc : BitVec 7) :
    (raiseFault e fpc s).Agree (raiseFault e fpc s') :=
  { h with ctx := { h.ctx with status := rfl } }

/-- An RM step that leaves the record clear fetches a written slot, so both blocks run the same word. -/
theorem State.Agree.rmStep (h : s.Agree s') (hr : rmStep s = .next t) (hu : t.ctx.uninit = none) :
    ∃ t', Machine.rmStep s' = .next t' ∧ t.Agree t' := by
  have hp := (rmStep_cases hr).1
  have hslot := ((rmStep_uninit_none hr).mp hu).2.1
  have hp' : s'.ctx.pc.toNat ≤ 69 := by rw [← h.ctx.pc]; exact hp
  have hword : s'.ctx.pmem.get s'.ctx.pc.toNat = s.ctx.pmem.get s.ctx.pc.toNat := by
    rw [← h.ctx.pc, h.ctx.pmem.val _ hslot]
  cases hd : decodeRm (s.ctx.pmem.get s.ctx.pc.toNat) with
  | error e =>
    obtain rfl := Host.Outcome.next.inj ((rmStep_of_error hp hd).symm.trans hr)
    refine ⟨_, rmStep_of_error hp' (hword ▸ hd), ?_⟩
    have hpc : (Machine.fetched s').ctx.pc = (Machine.fetched s).ctx.pc := h.fetched.ctx.pc.symm
    rw [raiseRm, raiseRm, hpc]
    exact h.fetched.raiseFault _ _
  | ok i =>
    rw [rmStep_of_ok hp hd] at hr
    rw [rmStep_of_ok hp' (hword ▸ hd)]
    exact h.fetched.exec (wellFormed_of_decodeRm hd) hr hu

/-- Blocks that agree take their RM steps together. -/
theorem State.Agree.nextRm (h : s.Agree s') (hn : NextRm s u) : ∃ u', NextRm s' u' ∧ u.Agree u' := by
  cases hn with
  | rest hi hb => exact ⟨s', .rest (h.inputs ▸ hi) (h.ctx.busy_eq ▸ hb), h⟩
  | @turn k rest _ hi hf hb =>
    have h' : State.Agree { s with inputs := rest } { s' with inputs := rest } := { h with inputs := rfl }
    obtain ⟨u', hf', hu⟩ := h'.focus hf
    exact ⟨u', .turn (h.inputs ▸ hi) hf' (hu.ctx.busy_eq ▸ hb), hu⟩
  | held hi hf hr hb hs =>
    obtain ⟨u', hf', hu⟩ := h.focus hf
    exact ⟨u', .held (h.inputs ▸ hi) hf' hr (hu.ctx.busy_eq ▸ hb) hs, hu⟩

/-- Blocks that agree take their commands together. -/
theorem State.Agree.nextCommand {c : Byte} (h : s.Agree s') (hn : NextCommand s c u) :
    ∃ u', NextCommand s' c u' ∧ u.Agree u' := by
  cases hn with
  | write hi hc hf hb =>
    obtain ⟨u', hf', hu⟩ := h.focus hf
    exact ⟨_, .write (h.inputs ▸ hi) hc hf' (hu.ctx.busy_eq ▸ hb),
      { hu with inputs := rfl, ctx := { hu.ctx with cmd := rfl } }⟩

theorem State.Agree.resetBlock (h : s.Agree s') : (resetBlock s).Agree (resetBlock s') where
  lower := forall₂_map_afterReset h.lower
  ctx := h.ctx.afterReset
  upper := forall₂_map_afterReset h.upper
  pool := rfl
  inputs := h.inputs
  hostData := h.hostData
  leases := h.leases

theorem State.Agree.passTurn (h : s.Agree s') : s.passTurn.Agree s'.passTurn := by
  have hup := h.upper
  have hcs := h.contexts
  unfold State.passTurn
  cases hu : s.upper <;> cases hu' : s'.upper <;> rw [hu, hu'] at hup <;> cases hup
  case cons.cons hc hrest => exact { h with lower := .cons h.ctx h.lower, ctx := hc, upper := hrest }
  case nil.nil =>
    cases hl : s.contexts <;> cases hl' : s'.contexts <;> rw [hl, hl'] at hcs <;> cases hcs
    case nil.nil => exact h
    case cons.cons hc hrest => exact { h with lower := .nil, ctx := hc, upper := hrest }

/-- A host read that leaves the record clear reads a written register, so both hosts are told the same (R70). -/
theorem State.Agree.hostRead (h : s.Agree s') {x : RegRef} (hu : (hostRead x s).ctx.uninit = none) :
    (Machine.hostRead x s).Agree (Machine.hostRead x s') := by
  have hx : s.ctx.isWritten x = true := ((Context.noteReads_uninit_none _ _ _).mp hu).2 x (by simp)
  have hid : s.ctxId = s'.ctxId := h.lower.length_eq
  refine { h with ctx := h.ctx.noteReads_agree _ _, hostData := ?_ }
  simp only [Machine.hostRead, h.ctx.hostValue_eq hx, hid]

/-- A step that leaves the records clear is taken in both blocks, which then still agree. -/
theorem State.Agree.step (h : s.Agree s') (hs : step s = .next t) (hc : t.clean = true) :
    ∃ t', Machine.step s' = .next t' ∧ t.Agree t' := by
  have hctx := State.uninit_of_clean hc
  obtain ⟨rest, hi, rfl⟩ | ⟨u, hn, hr⟩ | ⟨c, u, i, hn, hd, he⟩ | ⟨c, u, e, hn, hd, rfl⟩ |
    ⟨k, sp, i, b, rest, u, hi, hf, hr, hb, rfl⟩ | ⟨k, sp, i, b, v, rest, u, hi, hf, hr, hb, hsp, rfl⟩ |
    ⟨k, rest, hi, hf, hb⟩ | ⟨hi, hb, rfl⟩ := step_cases hs
  · -- reset
    have h' : State.Agree { s with inputs := rest } { s' with inputs := rest } := { h with inputs := rfl }
    exact ⟨_, by simp only [Machine.step, ← h.inputs, hi], h'.resetBlock⟩
  · -- RM step
    obtain ⟨u', hn', hu⟩ := h.nextRm hn
    obtain ⟨t', hr', ht⟩ := hu.rmStep hr hctx
    exact ⟨t', hn'.step_eq.trans hr', ht⟩
  · -- command
    obtain ⟨u', hn', hu⟩ := h.nextCommand hn
    obtain ⟨t', he', ht⟩ := hu.exec (wellFormed_of_decodeCmd hd) he hctx
    exact ⟨t', by rw [hn'.step_eq, hd]; exact he', ht⟩
  · -- unassigned command code
    obtain ⟨u', hn', hu⟩ := h.nextCommand hn
    exact ⟨raiseCmd e u', by rw [hn'.step_eq, hd], hu.raiseFault e 0#7⟩
  · -- host read
    obtain ⟨u', hf', hu⟩ := h.focus hf
    have hu' : State.Agree { u with inputs := rest } { u' with inputs := rest } := { hu with inputs := rfl }
    exact ⟨_, step_hostRead (h.inputs ▸ hi) hf' hr (hu.ctx.busy_eq ▸ hb), hu'.hostRead hctx⟩
  · -- host write
    obtain ⟨u', hf', hu⟩ := h.focus hf
    exact ⟨_, step_hostWrite (h.inputs ▸ hi) hf' hr (hu.ctx.busy_eq ▸ hb) hsp,
      { hu with inputs := rfl, ctx := hu.ctx.hostWrite _ _ }⟩
  · -- idle turn
    have h' : State.Agree { s with inputs := rest } { s' with inputs := rest } := { h with inputs := rfl }
    obtain ⟨t', hf', ht⟩ := h'.focus hf
    have hb' : t'.ctx.busy = false := ht.ctx.busy_eq ▸ hb
    exact ⟨t', by simp only [Machine.step, ← h.inputs, hi, turnStep, hf', hb', Bool.false_eq_true, if_false], ht⟩
  · -- turn passed
    have hb' : s'.ctx.busy = false := h.ctx.busy_eq ▸ hb
    exact ⟨_, by simp only [Machine.step, ← h.inputs, hi, restStep, hb', Bool.false_eq_true, if_false], h.passTurn⟩

end Blocks

/-- Settles O53: the step is taken in the other block, the results agree, and with them the records. -/
theorem checkedStepsIgnoreUnwrittenValues : Obligations.CheckedStepsIgnoreUnwrittenValues := by
  intro s s' t h hs
  obtain ⟨hstep, hclean⟩ := checkedStep_eq_next.mp hs
  obtain ⟨t', hstep', ht⟩ := h.step hstep hclean
  exact ⟨t', checkedStep_eq_next.mpr ⟨hstep', (State.clean_congr ht.contexts).symm.trans hclean⟩, ht⟩

end Sys2Proof.Machine
end

section
/-! PROOF. The registers that only the host and reset write (R21, R23, R24, R29, R30, R32, R80). -/

namespace Sys2Proof.Machine

/-- `d` has the `KEY`, `IN`, `RKEY`, `ST`, `PMEM` and `R4` to `R8` of `c`. -/
def Context.SameOperands (c d : Context) : Prop :=
  d.key = c.key ∧ d.inp = c.inp ∧ d.rkey = c.rkey ∧ d.st = c.st ∧ d.pmem = c.pmem ∧
    ∀ j, 4 ≤ j → d.r.get j = c.r.get j

theorem Context.SameOperands.refl (c : Context) : c.SameOperands c := ⟨rfl, rfl, rfl, rfl, rfl, fun _ _ => rfl⟩

theorem Context.SameOperands.trans {a b c : Context} (h : a.SameOperands b) (h' : b.SameOperands c) :
    a.SameOperands c := by
  obtain ⟨hkey, hinp, hrkey, hst, hpmem, hr⟩ := h
  obtain ⟨hkey', hinp', hrkey', hst', hpmem', hr'⟩ := h'
  exact ⟨hkey'.trans hkey, hinp'.trans hinp, hrkey'.trans hrkey, hst'.trans hst, hpmem'.trans hpmem,
    fun j hj => (hr' j hj).trans (hr j hj)⟩

theorem Context.noteReads_sameOperands (slot : BitVec 7) (xs : List RegRef) (c : Context) :
    c.SameOperands (c.noteReads slot xs) := by
  rw [Context.noteReads_eq]
  exact .refl c

/-- An ALU instruction writes one of `R0` to `R3` (R97, R195). -/
theorem aluEffect_sameOperands {d : Byte} (hd : dstLegal d = true) (r : Byte) (f : W32 → W32 → W32) (c : Context) :
    c.SameOperands (aluEffect d r f c) := by
  have hd3 : d.toNat ≤ 3 := by simpa [dstLegal] using hd
  have hr (j : Nat) (hj : 4 ≤ j) (v : W32) : (c.r.set d.toNat v).get j = c.r.get j :=
    RegBank.get_set_ne _ _ _ _ (by omega)
  simp +contextual [Context.SameOperands, aluEffect, hr]

/-- A command writes none of them (R80). -/
theorem exec_command_sameOperands {b : Byte} {i : Instr} {s t : State} (hd : decodeCmd b = .ok i)
    (h : exec i s = .next t) : s.ctx.SameOperands t.ctx := by
  obtain hc | rfl := command_cases hd
  · obtain ⟨t', ht', hctx⟩ := exec_command hc s
    obtain rfl : t' = t := Host.Outcome.next.inj (ht'.symm.trans h)
    simp [Context.SameOperands, hctx]
  · cases h
    exact .refl s.ctx

/-- An RM step writes none of them (R195). -/
theorem rmStep_sameOperands {s t : State} (h : rmStep s = .next t) : s.ctx.SameOperands t.ctx := by
  have hf : s.ctx.SameOperands (fetched s).ctx := Context.noteReads_sameOperands _ _ _
  obtain ⟨-, ⟨i, d, r, f, -, -, hd, -, rfl⟩ | ⟨-, rfl⟩ | ⟨e, -, rfl⟩⟩ := rmStep_cases h
  · exact hf.trans (aluEffect_sameOperands hd r f (fetched s).ctx)
  · exact hf
  · exact hf

/-- A host write of another space writes none of them (R70). -/
theorem hostWrite_sameOperands {sp : Space} (i : Nat) (v : W64) (c : Context)
    (hsp : sp ∉ [Space.key, Space.inp, Space.rkey, Space.st, Space.pmem, Space.r]) :
    c.SameOperands (c.hostWrite { space := sp, index := i } v) := by
  cases sp
  case rk | out | kout | sel | digest | cmd | status => exact .refl c
  all_goals exact absurd (by decide) hsp

/-- Where the moving context alone changes and keeps its operand registers, every context keeps them. -/
theorem State.sameOperands_of_frame {s u t : State} {k : Nat} {c c' : Context} (hc : s.contexts[k]? = some c)
    (hc' : t.contexts[k]? = some c') (hcs : u.contexts = s.contexts) (hl : t.lower = u.lower)
    (hu : t.upper = u.upper) (h : u.ctx.SameOperands t.ctx) : c.SameOperands c' := by
  obtain rfl | ⟨rfl, rfl⟩ := State.getElem?_contexts_of_frame hl hu (hcs ▸ hc) hc'
  · exact .refl _
  · exact h

/-- Settles O56, by the cases of a step. -/
theorem onlyHostWritesChangeOperandRegisters : Obligations.OnlyHostWritesChangeOperandRegisters := by
  intro s t h hreset hwrite k c c' hc hc'
  change c.SameOperands c'
  have same (hcs : t.contexts = s.contexts) : c.SameOperands c' := by
    obtain rfl : c' = c := Option.some.inj (hc'.symm.trans (hcs ▸ hc))
    exact .refl _
  obtain ⟨rest, hi, -⟩ | ⟨u, hn, hr⟩ | ⟨b, u, i, hn, hd, he⟩ | ⟨b, u, e, hn, hd, rfl⟩ |
    ⟨k, sp, i, b, rest, u, -, hf, -, -, rfl⟩ | ⟨k, sp, i, b, v, rest, u, hi, hf, -, hb, -, rfl⟩ |
    ⟨k, rest, -, hf, -⟩ | ⟨-, -, rfl⟩ := step_cases h
  · -- reset
    exact absurd hi (hreset rest)
  · -- RM step
    obtain ⟨hl, hu, -⟩ := rmStep_frame hr
    exact State.sameOperands_of_frame hc hc' hn.frame.1 hl hu (rmStep_sameOperands hr)
  · -- command
    obtain ⟨hl, hu, -⟩ := exec_frame he
    have hctx := exec_command_sameOperands hd he
    cases hn with
    | write _ _ hf _ => exact State.sameOperands_of_frame hc hc' (State.focus_spec hf).1 hl hu hctx
  · -- unassigned command code
    cases hn with
    | write _ _ hf _ => exact State.sameOperands_of_frame hc hc' (State.focus_spec hf).1 rfl rfl (.refl _)
  · -- host read
    exact State.sameOperands_of_frame hc hc' (State.focus_spec hf).1 rfl rfl (Context.noteReads_sameOperands _ _ _)
  · -- host write
    obtain ⟨hcs, -, hk, -⟩ := State.focus_spec hf
    have hsp := hwrite _ _ _ _ _ _ _ hi hk hb
    exact State.sameOperands_of_frame hc hc' hcs rfl rfl (hostWrite_sameOperands i v _ hsp)
  · -- idle turn
    exact same (State.focus_spec hf).1
  · -- turn passed
    exact same s.passTurn_spec.1

end Sys2Proof.Machine
end

section
/-! PROOF. A host write and the host read after it (R43, R44, R61, R70, R74). -/

namespace Sys2Proof.Machine

/-- The spaces that R44 gives the host to write. -/
def hostWritable : List Space := [.key, .rk, .inp, .rkey, .out, .r, .pmem, .st]

section Write

variable (c : Context) (v : W64)

/-- The register written holds the value at its width (R61). -/
theorem Context.hostValue_hostWrite_self {sp : Space} {i : Nat} (hsp : sp ∈ hostWritable) (hi : i < sp.entries) :
    (c.hostWrite { space := sp, index := i } v).hostValue { space := sp, index := i } =
      (v.setWidth sp.width).setWidth 64 := by
  simp only [hostWritable, List.mem_cons, List.not_mem_nil, or_false] at hsp
  obtain rfl | rfl | rfl | rfl | rfl | rfl | rfl | rfl := hsp
  all_goals
    simp only [Space.entries] at hi
    simp [Context.hostWrite, Context.hostValue, Space.width, RegBank.get_set, hi]

/-- The register written counts as written (R43). -/
theorem Context.isWritten_hostWrite_self {sp : Space} {i : Nat} (hsp : sp ∈ hostWritable) (hi : i < sp.entries) :
    (c.hostWrite { space := sp, index := i } v).isWritten { space := sp, index := i } = true := by
  simp only [hostWritable, List.mem_cons, List.not_mem_nil, or_false] at hsp
  obtain rfl | rfl | rfl | rfl | rfl | rfl | rfl | rfl := hsp <;>
    exact RegBank.isWritten_set_self _ _ _ hi

/-- No other register changes (R74). -/
theorem Context.hostWrite_of_ne {x y : RegRef} (h : y ≠ x) :
    (c.hostWrite x v).hostValue y = c.hostValue y ∧ (c.hostWrite x v).isWritten y = c.isWritten y := by
  obtain ⟨sp, i⟩ := x
  obtain ⟨sq, j⟩ := y
  by_cases hs : sq = sp
  case pos =>
    subst hs
    have hij : i ≠ j := fun hij => h (by rw [hij])
    cases sq <;>
      simp [Context.hostWrite, Context.hostValue, Context.isWritten, RegBank.get_set_ne _ _ _ _ hij,
        RegBank.isWritten_set_ne _ _ _ _ hij]
  case neg =>
    cases sp <;> cases sq
    case key.key | rk.rk | inp.inp | rkey.rkey | out.out | kout.kout | r.r | pmem.pmem | st.st | sel.sel
        | digest.digest | cmd.cmd | status.status => exact absurd rfl hs
    all_goals exact ⟨rfl, rfl⟩

end Write

/-- Settles O58: the write is taken, and the frame is that of `hostWrite`. -/
theorem hostWriteChangesOneRegister : Obligations.HostWriteChangesOneRegister := by
  intro s t k i sp v rest hi hf hb hlt hsp
  have hcmd : sp ≠ .cmd := by rintro rfl; exact absurd hsp (by decide)
  exact ⟨_, step_hostWrite hi hf (HostAccess.refusal_eq_none.mpr ⟨hlt, rfl⟩) hb hcmd, rfl,
    Context.hostValue_hostWrite_self _ v hsp hlt, Context.isWritten_hostWrite_self _ v hsp hlt,
    fun x hx => Context.hostWrite_of_ne _ v hx, Context.hostWrite_pc .., Context.hostWrite_sel ..,
    Context.hostWrite_cmd .., Context.hostWrite_status .., Context.hostWrite_uninit ..⟩

/-- Settles O15: by the frame of the write its context still moves, is not `BUSY` and has the register written, so the
read is taken and notes nothing. -/
theorem hostReadReturnsTheValueWritten : Obligations.HostReadReturnsTheValueWritten := by
  intro s t k i sp v rest hi hf hb hlt hsp
  obtain ⟨u, hstep, hu, hvalue, hwritten, -, -, -, -, hstatus, huninit⟩ :=
    hostWriteChangesOneRegister s t k i sp v _ hi hf hb hlt hsp
  have hid : u.ctxId = k := by rw [hu]; exact (State.focus_spec hf).2.1
  have hiu : u.inputs = .host k (.read sp i sp.width) :: rest := by rw [hu]
  have hbu : u.ctx.busy = false := by rw [Context.busy, hstatus]; exact hb
  refine ⟨u, _, hstep, step_hostRead hiu (hid ▸ u.focus_self) (HostAccess.refusal_eq_none.mpr ⟨hlt, rfl⟩) (.inl hbu),
    rfl, ?_, ?_⟩
  · rw [← huninit]
    exact congrArg Context.uninit (Context.noteReads_of_written _ _ _ (by simpa using hwritten))
  · rw [← hvalue, ← hid]
    rfl

end Sys2Proof.Machine
end

section
/-! PROOF. The fields of `STATUS` and how a command starts and ends (R36 to R40, R91, R141, R260). -/

namespace Sys2Proof.Machine

section StatusWord

variable (st : Status)

/-- The status word with the width of its fields kept apart, as the lemmas on `++` read it. -/
theorem extractLsb'_statusWord (i n : Nat) :
    (statusWord st).extractLsb' i n =
      (0#9 ++ st.fpc ++ causeCode st.cause ++ 0#5 ++ BitVec.ofBool st.cap ++ runStateCode st.state :
        BitVec (9 + 7 + 8 + 5 + 1 + 2)).extractLsb' i n := rfl

theorem statusWord_state : (statusWord st).extractLsb' 0 2 = runStateCode st.state := by
  simp only [extractLsb'_statusWord, BitVec.extractLsb'_append_eq_ite]
  simp

theorem statusWord_cap : (statusWord st).getLsbD 2 = st.cap := by
  have h : (statusWord st).extractLsb' 2 1 = BitVec.ofBool st.cap := by
    simp only [extractLsb'_statusWord, BitVec.extractLsb'_append_eq_ite]
    simp
  simpa using congrArg (BitVec.getLsbD · 0) h

theorem statusWord_reserved_low : (statusWord st).extractLsb' 3 5 = 0#5 := by
  simp only [extractLsb'_statusWord, BitVec.extractLsb'_append_eq_ite]
  simp

theorem statusWord_cause : (statusWord st).extractLsb' 8 8 = causeCode st.cause := by
  simp only [extractLsb'_statusWord, BitVec.extractLsb'_append_eq_ite]
  simp

theorem statusWord_fpc : (statusWord st).extractLsb' 16 7 = st.fpc := by
  simp only [extractLsb'_statusWord, BitVec.extractLsb'_append_eq_ite]
  simp

theorem statusWord_reserved_high : (statusWord st).extractLsb' 23 9 = 0#9 := by
  simp only [extractLsb'_statusWord, BitVec.extractLsb'_append_eq_ite]
  simp

end StatusWord

/-- Settles O11: the fields one by one, with the codes of `STATE` and `CAUSE` that R36 and R260 list. -/
theorem statusFieldsLieAsStated : Obligations.StatusFieldsLieAsStated := by
  refine ⟨fun st => ⟨?_, statusWord_cap st, statusWord_reserved_low st, ?_, statusWord_fpc st,
    statusWord_reserved_high st⟩, by decide, fun c v => rfl⟩
  · rw [statusWord_state]
    cases st.state <;> rfl
  · rw [statusWord_cause]
    cases st.cause <;> rfl

/-- Settles O12: the step decodes the code and runs what it decodes to. -/
theorem stepRunsTheDecodedCommand : Obligations.StepRunsTheDecodedCommand := by
  intro s t c i hn hd
  rw [hn.step_eq, hd]

/-- Settles O14: the start clears `CAP`, `CAUSE` and `FPC`, and the end sets `DONE`. -/
theorem oneStepCommandsEndDone : Obligations.OneStepCommandsEndDone := by
  intro i s hi
  obtain ⟨t, ht, hctx⟩ := exec_command hi s
  refine ⟨t, ht, ?_⟩
  rw [hctx, Context.finish_status, commandEffect_status, Context.noteReads_status, Context.start_status]
  rfl

end Sys2Proof.Machine
end

section
/-! PROOF. Host accesses of one register: which are refused, which are ignored, what a read returns (R35, R60, R61, R70,
R73, R77, R106). -/

namespace Sys2Proof.Machine

/-- A number below `N_CTX` chooses a context (R272). -/
theorem State.exists_focus {s : State} {k : Nat} (hk : k < s.contexts.length) : ∃ t, s.focus k = some t := by
  have hsome := s.focus_isSome k
  rw [decide_eq_true hk] at hsome
  exact Option.isSome_iff_exists.mp hsome

/-- An access that cannot be made is refused in every context that exists, `BUSY` or not (R61, R73). -/
theorem step_of_refusal {s : State} {k : Nat} {a : HostAccess} {rest : List Input} {r : Refusal}
    (hi : s.inputs = .host k a :: rest) (hk : k < s.contexts.length) (hr : a.refusal = some r) :
    step s = .refused r := by
  obtain ⟨t, hf⟩ := State.exists_focus hk
  simp only [step, hi, hostStep, hf, hr]

theorem HostAccess.refusal_of_index {a : HostAccess} (h : a.reg.space.entries ≤ a.reg.index) :
    a.refusal = some .noSuchRegister := if_pos h

theorem HostAccess.refusal_of_bits {a : HostAccess} (hi : a.reg.index < a.reg.space.entries)
    (hb : a.bits ≠ a.reg.space.width) : a.refusal = some .partialWidth := by
  rw [HostAccess.refusal, if_neg (Nat.not_le.mpr hi), if_pos hb]

/-- Settles O19: the index is looked at first, for a read as for a write. -/
theorem nonexistentRegisterIsRefused : Obligations.NonexistentRegisterIsRefused := by
  rintro s k i b sp v rest hk hle (hi | hi)
  all_goals exact step_of_refusal hi hk (HostAccess.refusal_of_index hle)

/-- Settles O20: the width is looked at where the index exists, for a read as for a write. -/
theorem partialAccessIsRefused : Obligations.PartialAccessIsRefused := by
  rintro s k i b sp v rest hk hlt hb (hi | hi)
  all_goals exact step_of_refusal hi hk (HostAccess.refusal_of_bits hlt hb)

/-- A register that the assembler reads exists (R73, R106). -/
theorem asmRegRef_index_lt {l : List Char} {x : RegRef} (h : asmRegRef l = some x) : x.index < x.space.entries := by
  simp only [asmRegRef, Option.bind_eq_bind, Option.bind_eq_some_iff] at h
  obtain ⟨⟨_, sp⟩, -, i, -, h⟩ := h
  split at h
  · next hlt => cases h; exact hlt
  · cases h

/-- The register of a transfer line is one that the assembler reads on one side of the arrow (R106). -/
theorem assembleTransfer_reg {line : List Char} {t : Transfer} (h : assembleTransfer line = some t) :
    ∃ l, asmRegRef l = some t.reg := by
  simp only [assembleTransfer, Option.bind_eq_bind, Option.bind_eq_some_iff] at h
  obtain ⟨⟨a, b⟩, -, h⟩ := h
  split at h
  · obtain ⟨x, hx, h⟩ := Option.bind_eq_some_iff.mp h
    cases h
    exact ⟨strip b, hx⟩
  · obtain ⟨x, hx, h⟩ := Option.bind_eq_some_iff.mp h
    obtain ⟨v, -, h⟩ := Option.bind_eq_some_iff.mp h
    split at h
    · cases h
      exact ⟨strip a, hx⟩
    · cases h

/-- The access of a transfer moves its register whole (R61). -/
theorem Transfer.access_reg_bits (t : Transfer) : t.access.reg = t.reg ∧ t.access.bits = t.reg.space.width := by
  unfold Transfer.access
  split <;> exact ⟨rfl, rfl⟩

/-- Settles O8: the register of the line exists, and its access moves it whole. -/
theorem transferLinesNameWholeRegisters : Obligations.TransferLinesNameWholeRegisters := by
  intro line t h
  obtain ⟨l, hl⟩ := assembleTransfer_reg h
  obtain ⟨hreg, hbits⟩ := t.access_reg_bits
  exact HostAccess.refusal_eq_none.mpr ⟨hreg ▸ asmRegRef_index_lt hl, hreg ▸ hbits⟩

/-- Settles O16: the write is taken and leaves its context as it was. -/
theorem writesToReadOnlyRegistersAreIgnored : Obligations.WritesToReadOnlyRegistersAreIgnored := by
  intro s t k i sp v rest hi hf hb hlt hsp
  have hr : (HostAccess.write sp i sp.width v).refusal = none := HostAccess.refusal_eq_none.mpr ⟨hlt, rfl⟩
  simp only [List.mem_cons, List.not_mem_nil, or_false] at hsp
  obtain rfl | rfl | rfl | rfl := hsp
  all_goals exact step_hostWrite hi hf hr hb (by decide)

/-- Settles O17: the read takes effect though the context be `BUSY`, and `STATUS` counts as written, so nothing is
noted. -/
theorem statusReadTakesEffectAtOnce : Obligations.StatusReadTakesEffectAtOnce := by
  intro s t k rest hi hf
  obtain ⟨-, rfl, -⟩ := State.focus_spec hf
  have hn : t.ctx.noteReads 0#7 [⟨.status, 0⟩] = t.ctx :=
    Context.noteReads_of_written _ _ _ (by simp [Context.isWritten])
  rw [step_hostRead hi hf (HostAccess.refusal_eq_none.mpr ⟨Nat.one_pos, rfl⟩) (.inr rfl)]
  simp only [hostRead, State.mapCtx, hn]
  rfl

/-- Settles O18: the read notes at most an unwritten register, and tells the host the register's value. -/
theorem hostReadHasNoSideEffect : Obligations.HostReadHasNoSideEffect := by
  intro s t k i sp rest hi hf hb hlt
  obtain ⟨-, rfl, -⟩ := State.focus_spec hf
  refine ⟨_, step_hostRead hi hf (HostAccess.refusal_eq_none.mpr ⟨hlt, rfl⟩) (.inl hb), ?_, ?_, fun hw => ?_⟩
  · simp only [hostRead, State.mapCtx]
    rw [← Context.noteReads_eq]
  · cases sp <;> rfl
  · exact Context.noteReads_of_written _ _ _ (by simpa using hw)

end Sys2Proof.Machine
end

section
/-! PROOF. The hold of an access while its context is `BUSY` (R77, R181, R197). -/

namespace Sys2Proof.Machine

section Hold

variable {s t : State} {k : Nat} {a : HostAccess} {rest : List Input}

/-- The step of a block in which an access holds: the run of its context takes an RM step, which may end it, and the
access stays first in line for the same context. -/
theorem step_of_held (hi : s.inputs = .host k a :: rest) (hf : s.focus k = some t) (hb : t.ctx.busy = true)
    (hr : a.refusal = none) (hs : a.isStatusRead = false) (hp : t.ctx.pc.toNat ≤ 69) :
    ∃ u, rmStep t = .next u ∧ step s = .next u ∧ u.inputs = s.inputs ∧ u.ctxId = k ∧
      (u.ctx.busy = false ∨
        (u.ctx.busy = true ∧ u.ctx.pc.toNat = t.ctx.pc.toNat + 1 ∧ u.ctx.pc.toNat ≤ 69)) := by
  obtain ⟨u, hu⟩ := rmStep_completes hp
  obtain ⟨-, hid, -, -, hin, -⟩ := State.focus_spec hf
  obtain ⟨huin, huid, hrun⟩ := rmStep_progress hu hb
  refine ⟨u, hu, (NextRm.held hi hf hr hb hs).step_eq.trans hu, huin.trans hin, huid.trans hid, ?_⟩
  obtain hd | hd | hd := hrun
  · exact .inl (by simp [Context.busy, hd])
  · exact .inl (by simp [Context.busy, hd])
  · exact .inr hd

/-- A hold is lifted before the run has taken its steps up to slot 69, by induction on how many are left. -/
theorem exists_run_not_busy_of_held (n : Nat) (hi : s.inputs = .host k a :: rest) (hf : s.focus k = some t)
    (hb : t.ctx.busy = true) (hr : a.refusal = none) (hs : a.isStatusRead = false) (hp : t.ctx.pc.toNat ≤ 69)
    (hn : 70 ≤ t.ctx.pc.toNat + n) :
    ∃ m u, m ≤ n ∧ Host.Core.run core m s = .next u ∧ u.inputs = s.inputs ∧ u.ctxId = k ∧
      u.ctx.busy = false := by
  induction n generalizing s t with
  | zero => omega
  | succ n ih =>
    obtain ⟨u, -, hstep, hin, hid, hend | ⟨hbu, hpc, hpu⟩⟩ := step_of_held hi hf hb hr hs hp
    case inl => exact ⟨1, u, by omega, run_succ 0 hstep, hin, hid, hend⟩
    case inr =>
      obtain ⟨m, v, hm, hrun, hvin, hvid, hvb⟩ := ih (hin.trans hi) (hid ▸ u.focus_self) hbu hpu (by omega)
      exact ⟨m + 1, v, by omega, (run_succ m hstep).trans hrun, hvin.trans hin, hvid, hvb⟩

end Hold

/-- Settles O21: the step is the RM step of the run, which leaves the inputs alone. -/
theorem accessHoldsWhileBusy : Obligations.AccessHoldsWhileBusy := by
  intro s t k a rest hi hf hb hr hs hp
  obtain ⟨u, hu, hstep, hin, -⟩ := step_of_held hi hf hb hr hs hp
  exact ⟨u, hu, hstep, hin⟩

/-- Settles O22: at most 70 slots are left to the run, whatever slot it is at. -/
theorem holdIsLiftedWithinSeventySteps : Obligations.HoldIsLiftedWithinSeventySteps := by
  intro s t k a rest hi hf hb hr hs hp
  exact exists_run_not_busy_of_held 70 hi hf hb hr hs hp (Nat.le_add_left 70 _)

end Sys2Proof.Machine
end

section
/-! PROOF. The step of one context's input is a move of that context alone, once it is the one that moves (R20, R75,
R241, R272). -/

namespace Sys2Proof.Machine

/-- A move of the moving context alone: the other contexts stay as they were, and what becomes of the moving context
and of what the host was told does not depend on the other contexts, the pools, the inputs or the leases. -/
structure LocalMove (f : State → Host.Outcome State Fault Refusal) : Prop where
  frame : ∀ {s t : State}, f s = .next t → t.lower = s.lower ∧ t.upper = s.upper
  congr : ∀ {s s' t : State}, f s = .next t → s'.ctx = s.ctx →
    ∃ t', f s' = .next t' ∧ t'.ctx = t.ctx ∧
      (s'.ctxId = s.ctxId → s'.hostData = s.hostData → t'.hostData = t.hostData)

section Moves

variable {f g : State → Host.Outcome State Fault Refusal}

/-- A move that tells the host nothing. -/
theorem LocalMove.of_hostData
    (hframe : ∀ {s t : State}, f s = .next t → t.lower = s.lower ∧ t.upper = s.upper ∧ t.hostData = s.hostData)
    (hcongr : ∀ {s s' t : State}, f s = .next t → s'.ctx = s.ctx → ∃ t', f s' = .next t' ∧ t'.ctx = t.ctx) :
    LocalMove f where
  frame h := ⟨(hframe h).1, (hframe h).2.1⟩
  congr {s s' t} h hc := by
    obtain ⟨t', h', hctx⟩ := hcongr h hc
    obtain ⟨-, -, hh⟩ := hframe h
    obtain ⟨-, -, hh'⟩ := hframe h'
    exact ⟨t', h', hctx, fun _ hd => hh'.trans (hd.trans hh.symm)⟩

theorem LocalMove.refused (r : Refusal) : LocalMove fun _ => .refused r where
  frame h := by cases h
  congr h := by cases h

/-- A change of the moving context. -/
theorem LocalMove.mapCtx (c : Context → Context) : LocalMove fun s => .next (s.mapCtx c) := by
  refine .of_hostData (fun h => ?_) fun h hc => ?_
  · cases h
    exact ⟨rfl, rfl, rfl⟩
  · cases h
    exact ⟨_, rfl, by simp [hc]⟩

theorem LocalMove.exec (i : Instr) : LocalMove (exec i) := by
  refine .of_hostData (fun h => ?_) exec_ctx_congr
  obtain ⟨hl, hu, -, hh⟩ := exec_frame h
  exact ⟨hl, hu, hh⟩

theorem LocalMove.rmStep : LocalMove rmStep := by
  refine .of_hostData (fun h => ?_) rmStep_ctx_congr
  obtain ⟨hl, hu, -, hh, -⟩ := rmStep_frame h
  exact ⟨hl, hu, hh⟩

/-- A host read tells the host the number of the context and the value of its register (R70). -/
theorem LocalMove.hostRead (x : RegRef) : LocalMove fun s => .next (hostRead x s) where
  frame h := by
    cases h
    exact ⟨rfl, rfl⟩
  congr {s s' t} h hc := by
    cases h
    exact ⟨_, rfl, by simp [Machine.hostRead, hc], fun hid _ => by simp only [Machine.hostRead, hid, hc]⟩

/-- A move after a change of the moving context. -/
theorem LocalMove.comp_mapCtx (hf : LocalMove f) (c : Context → Context) : LocalMove fun s => f (s.mapCtx c) where
  frame h := (hf.frame h :)
  congr {_ s' _} h hc := (hf.congr (s' := s'.mapCtx c) h (congrArg c hc) :)

/-- A move after the first input is taken. -/
theorem LocalMove.comp_tail (hf : LocalMove f) : LocalMove fun s => f { s with inputs := s.inputs.tail } where
  frame h := (hf.frame h :)
  congr {_ s' _} h hc := (hf.congr (s' := { s' with inputs := s'.inputs.tail }) h hc :)

/-- The moving context may choose the move. -/
theorem LocalMove.ite (hf : LocalMove f) (hg : LocalMove g) (p : Context → Bool) :
    LocalMove fun s => if p s.ctx then f s else g s where
  frame {s t} h := by
    cases hp : p s.ctx <;> simp only [hp, Bool.false_eq_true, if_true, if_false] at h
    · exact hg.frame h
    · exact hf.frame h
  congr {s s' t} h hc := by
    simp only [hc]
    cases hp : p s.ctx <;> simp only [hp, Bool.false_eq_true, if_true, if_false] at h ⊢
    · exact hg.congr h hc
    · exact hf.congr h hc

end Moves

/-- A command is decoded from its code alone (R37, R92). -/
theorem LocalMove.issueCommand (c : Byte) : LocalMove (issueCommand c) := by
  unfold Machine.issueCommand
  cases decodeCmd c with
  | ok i => exact (LocalMove.exec i).comp_mapCtx _
  | error e => exact (LocalMove.mapCtx fun x => { x with status := .faulted e 0#7 }).comp_mapCtx _

theorem LocalMove.performAccess (a : HostAccess) : LocalMove (performAccess a) := by
  cases a with
  | read sp i b => exact .hostRead _
  | write sp i b v =>
    unfold Machine.performAccess
    by_cases hsp : sp = .cmd
    · simp only [hsp, if_true]
      exact .issueCommand _
    · simp only [hsp, if_false]
      exact .mapCtx _

/-- What an access does in the block in which its context moves; `step_of_host` ties it to the step. -/
def accessMove (a : HostAccess) (s : State) : Host.Outcome State Fault Refusal :=
  match a.refusal with
  | some r => .refused r
  | none =>
    if s.ctx.busy && !a.isStatusRead then rmStep s else performAccess a { s with inputs := s.inputs.tail }

/-- What a turn does in the block in which its context moves; `step_of_turn` ties it to the step. -/
def turnMove (s : State) : Host.Outcome State Fault Refusal :=
  if s.ctx.busy then rmStep { s with inputs := s.inputs.tail } else .next { s with inputs := s.inputs.tail }

theorem LocalMove.accessMove (a : HostAccess) : LocalMove (accessMove a) := by
  unfold Machine.accessMove
  cases a.refusal with
  | some r => exact .refused r
  | none => exact .ite .rmStep (LocalMove.performAccess a).comp_tail fun c => c.busy && !a.isStatusRead

theorem LocalMove.turnMove : LocalMove turnMove :=
  .ite LocalMove.rmStep.comp_tail (LocalMove.mapCtx id).comp_tail Context.busy

/-- Choosing a context does not look at the inputs. -/
theorem State.focus_with_inputs (s : State) (l : List Input) (k : Nat) :
    State.focus { s with inputs := l } k = (s.focus k).map fun u => { u with inputs := l } := by
  have hid : ({ s with inputs := l } : State).ctxId = s.ctxId := rfl
  have hcs : ({ s with inputs := l } : State).contexts = s.contexts := rfl
  simp only [State.focus, hid, hcs]
  split
  · rfl
  · split <;> rfl

/-- The step of a host access chooses its context and makes the access there (R75, R272). -/
theorem step_of_host {s : State} {k : Nat} {a : HostAccess} {rest : List Input}
    (hi : s.inputs = .host k a :: rest) :
    step s = (s.focus k).elim (.refused .noSuchContext) (accessMove a) := by
  cases hf : s.focus k with
  | none => simp only [step, hi, hostStep, hf, Option.elim_none]
  | some u =>
    obtain ⟨-, -, -, -, hin, -⟩ := State.focus_spec hf
    cases hr : a.refusal <;>
      simp only [step, hi, hostStep, hf, Option.elim_some, accessMove, hr, hin, List.tail_cons]

/-- The step of a turn chooses its context and makes the turn there (R75, R309). -/
theorem step_of_turn {s : State} {k : Nat} {rest : List Input} (hi : s.inputs = .turn k :: rest) :
    step s = (s.focus k).elim (.refused .noSuchContext) turnMove := by
  simp only [step, hi, turnStep, State.focus_with_inputs]
  cases hf : s.focus k with
  | none => rfl
  | some u =>
    obtain ⟨-, -, -, -, hin, -⟩ := State.focus_spec hf
    simp only [Option.map_some, Option.elim_some, turnMove, hin, hi, List.tail_cons]

/-- The step of an input of context `k` chooses that context and is a move of it alone. -/
theorem exists_localMove {m : Input} {k : Nat} (hm : (∃ a, m = .host k a) ∨ m = .turn k) :
    ∃ f, LocalMove f ∧ ∀ (s : State) (rest : List Input), s.inputs = m :: rest →
      step s = (s.focus k).elim (.refused .noSuchContext) f := by
  obtain ⟨a, rfl⟩ | rfl := hm
  · exact ⟨accessMove a, .accessMove a, fun s rest hi => step_of_host hi⟩
  · exact ⟨turnMove, .turnMove, fun s rest hi => step_of_turn hi⟩

/-- A move of the chosen context that answers. -/
theorem focus_elim_eq_next {s t : State} {k : Nat} {f : State → Host.Outcome State Fault Refusal} :
    (s.focus k).elim (.refused .noSuchContext) f = .next t ↔ ∃ u, s.focus k = some u ∧ f u = .next t := by
  cases s.focus k <;> simp

/-- Settles O55: both blocks choose context `k` and make the same move of it. -/
theorem stepOfOneContextDependsOnItAlone : Obligations.StepOfOneContextDependsOnItAlone := by
  intro s s' t k m rest rest' hm hi hi' hc h
  obtain ⟨f, hlocal, hstep⟩ := exists_localMove hm
  rw [hstep s rest hi] at h
  obtain ⟨u, hf, hu⟩ := focus_elim_eq_next.mp h
  obtain ⟨-, rfl, -, -, -, hh, -⟩ := State.focus_spec hf
  obtain ⟨u', hf', hctx, hid⟩ := State.focus_congr hf hc
  obtain ⟨-, -, -, -, -, hh', -⟩ := State.focus_spec hf'
  obtain ⟨t', hu', hctx', hdata⟩ := hlocal.congr hu hctx
  refine ⟨t', (hstep s' rest' hi').trans (focus_elim_eq_next.mpr ⟨u', hf', hu'⟩), ?_,
    fun _ _ hd => hdata hid (hh'.trans (hd.symm.trans hh.symm))⟩
  rw [State.contexts_getElem?_of_lower (hlocal.frame hu).1, ← hid,
    State.contexts_getElem?_of_lower (hlocal.frame hu').1, hctx']

/-- The step of context `k` replaces entry `k` of the contexts and no other. -/
theorem step_contexts_eq_set {s t : State} {k : Nat} {rest : List Input}
    (hk : (∃ a, s.inputs = .host k a :: rest) ∨ s.inputs = .turn k :: rest ∨ (s.inputs = [] ∧ k = s.ctxId))
    (h : step s = .next t) : ∃ c, t.contexts = s.contexts.set k c := by
  have input {m : Input} (hm : (∃ a, m = .host k a) ∨ m = .turn k) (hi : s.inputs = m :: rest) :
      ∃ c, t.contexts = s.contexts.set k c := by
    obtain ⟨f, hlocal, hstep⟩ := exists_localMove hm
    rw [hstep s rest hi] at h
    obtain ⟨u, hf, hu⟩ := focus_elim_eq_next.mp h
    obtain ⟨hcs, rfl, -⟩ := State.focus_spec hf
    obtain ⟨hl, hup⟩ := hlocal.frame hu
    exact ⟨t.ctx, hcs ▸ State.contexts_of_frame hl hup⟩
  obtain ⟨a, hi⟩ | hi | ⟨hi, rfl⟩ := hk
  · exact input (.inl ⟨a, rfl⟩) hi
  · exact input (.inr rfl) hi
  · simp only [step, hi, restStep] at h
    split at h
    · obtain ⟨hl, hup, -⟩ := rmStep_frame h
      exact ⟨t.ctx, State.contexts_of_frame hl hup⟩
    · cases h
      exact ⟨s.ctx, by rw [s.passTurn_spec.1, ← State.contexts_with_ctx]⟩

/-- Settles O54: replacing one entry keeps the others and their number. -/
theorem stepOfOneContextLeavesTheOthers : Obligations.StepOfOneContextLeavesTheOthers := by
  intro s t k rest hk h
  obtain ⟨c, hc⟩ := step_contexts_eq_set hk h
  rw [hc]
  exact ⟨List.length_set, fun j hj => List.getElem?_set_ne hj.symm⟩

end Sys2Proof.Machine
end

section
/-! PROOF. Decoding and encoding are inverse up to the ignored bits (R91, R92, R95, R96, R101, R102, R109). -/

namespace Sys2Proof.Machine

/-- The instructions of opcodes 0 to 5, in order (R96); `decodeRm_of_lt` ties them to the decoder and
`encode_opcodeInstrs` to the encoder. -/
def opcodeInstrs (d s : Byte) (c : W32) : List Instr :=
  [.mul d s, .add d s c, .sub d s, .ror d s, .rol d s, .xor d s]

/-- The opcodes of `opcodeInstrs` are those below 6. -/
theorem exists_opcodeInstrs_iff {d s : Byte} {c : W32} {n : Nat} :
    (∃ i, (opcodeInstrs d s c)[n]? = some i) ↔ n < 6 :=
  ⟨fun ⟨_, hi⟩ => (List.getElem?_eq_some_iff.mp hi).1, fun h => ⟨_, List.getElem?_eq_getElem h⟩⟩

/-- ADD alone holds the constant (R99, R102). -/
theorem opcodeInstrs_const (d s : Byte) (c c' : W32) {n : Nat} (hn : n ≠ 1) :
    (opcodeInstrs d s c)[n]? = (opcodeInstrs d s c')[n]? := by
  match n with
  | 0 => rfl
  | 1 => exact absurd rfl hn
  | _ + 2 => rfl

section Word

variable {w w' : W64} {i : Instr}

/-! The operand checks, one refusal after the other (R101). -/

theorem checkOperands_of_rsv (hr : rsvField w ≠ 0#8) : checkOperands w i = .error .reservedNonzero := if_pos hr

theorem checkOperands_of_dst (hr : rsvField w = 0#8) (hd : 3 < (dstField w).toNat) :
    checkOperands w i = .error .illegalDst := by
  simp [checkOperands, hr, dstLegal, hd.not_ge]

theorem checkOperands_of_src (hr : rsvField w = 0#8) (hd : (dstField w).toNat ≤ 3) (hs : 8 < (srcField w).toNat) :
    checkOperands w i = .error .illegalSrc := by
  simp [checkOperands, hr, dstLegal, hd, srcLegal, hs.not_ge]

/-- A word whose opcode is below 6 has its fields checked (R101). -/
theorem decodeRm_of_lt (hi : (opcodeInstrs (dstField w) (srcField w) (constField w))[(opField w).toNat]? = some i) :
    decodeRm w = checkOperands w i := by
  have hlt : (opField w).toNat < 6 := exists_opcodeInstrs_iff.mp ⟨i, hi⟩
  unfold decodeRm
  generalize (opField w).toNat = op at hi hlt
  interval_cases op <;> cases hi <;> rfl

theorem decodeRm_of_eq (h : (opField w).toNat = 6) : decodeRm w = .ok .ret := by
  simp only [decodeRm, h]

theorem decodeRm_of_gt (h : 6 < (opField w).toNat) : decodeRm w = .error .illegalOpcode := by
  unfold decodeRm
  split
  case h_8 => rfl
  all_goals omega

/-- The words that decode, and what they decode to (R101). -/
theorem decodeRm_eq_ok_iff :
    decodeRm w = .ok i ↔ (opField w).toNat = 6 ∧ i = .ret ∨
      (opcodeInstrs (dstField w) (srcField w) (constField w))[(opField w).toNat]? = some i ∧
        rsvField w = 0#8 ∧ dstLegal (dstField w) = true ∧ srcLegal (srcField w) = true := by
  obtain hlt | heq | hgt := lt_trichotomy (opField w).toNat 6
  · obtain ⟨j, hj⟩ := exists_opcodeInstrs_iff.mpr hlt
    rw [decodeRm_of_lt hj, checkOperands_ok, hj, Option.some.injEq, eq_comm (a := i)]
    simp [hlt.ne]
  · simp [decodeRm_of_eq heq, heq, opcodeInstrs, eq_comm (a := i)]
  · have hnone : (opcodeInstrs (dstField w) (srcField w) (constField w))[(opField w).toNat]? = none :=
      List.getElem?_eq_none hgt.le
    simp [decodeRm_of_gt hgt, hnone, hgt.ne']

/-- Settles O3: the opcode first, then the checks of the operands in their order. -/
theorem decodeChecksFieldsInTheOrderOfTheRule : Obligations.DecodeChecksFieldsInTheOrderOfTheRule := by
  intro w op d s rsv c
  have below (hop : op < 6) : ∃ i, (opcodeInstrs d s c)[op]? = some i ∧ decodeRm w = checkOperands w i := by
    obtain ⟨i, hi⟩ := exists_opcodeInstrs_iff.mpr hop
    exact ⟨i, hi, decodeRm_of_lt hi⟩
  refine ⟨decodeRm_of_gt, decodeRm_of_eq, fun hop hr => ?_, fun hop hr hd => ?_, fun hop hr hd hs => ?_,
    fun hop hr hd hs => ?_⟩
  all_goals obtain ⟨i, hi, hw⟩ := below hop
  · exact hw.trans (checkOperands_of_rsv hr)
  · exact hw.trans (checkOperands_of_dst hr hd)
  · exact hw.trans (checkOperands_of_src hr hd hs)
  · rw [hw, checkOperands_ok.mpr ⟨rfl, hr, decide_eq_true hd, decide_eq_true hs⟩]
    change _ = ((opcodeInstrs d s c).map Except.ok)[op]?
    rw [List.getElem?_map, hi, Option.map_some]

/-- An assembled word of opcode below 6 with legal indexes decodes to its instruction (R95, R101). -/
theorem decodeRm_rmWord {op d s : Byte} {c : W32} (hi : (opcodeInstrs d s c)[op.toNat]? = some i)
    (h : (dstLegal d && srcLegal s) = true) : decodeRm (rmWord op d s c) = .ok i := by
  rw [decodeRm_eq_ok_iff]
  simpa [hi] using .inr (Bool.and_eq_true_iff.mp h)

/-- Settles O1: a command's code and RET's word decode by evaluation, an assembled word by its fields. -/
theorem decodeOfEncodeGivesTheInstruction : Obligations.DecodeOfEncodeGivesTheInstruction := by
  intro i h
  cases i
  case aesExpandKey | aesEncryptBlock | aesSingleRound | aesSingleRoundHeavy | rmExec | hfFinalize | ret => rfl
  case mul | add | sub | ror | rol | xor => exact decodeRm_rmWord rfl h

/-- The word written for an instruction of opcode below 6: all but ADD's have a zero constant (R106). -/
theorem encode_opcodeInstrs {op d s : Byte} {c : W32} (hi : (opcodeInstrs d s c)[op.toNat]? = some i) :
    encode i = .rm64 (rmWord op d s (if op = 1#8 then c else 0#32)) := by
  have hlt : op.toNat < 6 := exists_opcodeInstrs_iff.mp ⟨i, hi⟩
  have hop : op = BitVec.ofNat 8 op.toNat := by simp
  generalize op.toNat = n at hi hlt hop
  subst hop
  interval_cases n <;> cases hi <;> rfl

/-- A word with RSV zero is its constant before its low half, which holds the other fields (R95). -/
theorem rmWord_fields (h : rsvField w = 0#8) (c : W32) :
    rmWord (opField w) (dstField w) (srcField w) c = c ++ w.extractLsb' 0 32 := by
  have low : rsvField w ++ srcField w ++ dstField w ++ opField w = w.extractLsb' 0 32 := by
    rw [rsvField, srcField, BitVec.extractLsb'_append_extractLsb'_eq_extractLsb' (show 24 = 16 + 8 from rfl), dstField,
      BitVec.extractLsb'_append_extractLsb'_eq_extractLsb' (show 16 = 8 + 8 from rfl), opField,
      BitVec.extractLsb'_append_extractLsb'_eq_extractLsb' (show 8 = 0 + 8 from rfl)]
  rw [← low, h]
  simp only [rmWord, BitVec.append_assoc, BitVec.cast_eq]

/-! The ignored bits: none of an ADD word, 63:8 of a RET word, 63:32 of every other (R102). -/

theorem canonicalWord_of_add (h : (opField w).toNat = 1) : canonicalWord w = w := by
  simp only [canonicalWord, h]

theorem canonicalWord_of_ret (h : (opField w).toNat = 6) : canonicalWord w = 6#64 := by
  simp only [canonicalWord, h]

theorem canonicalWord_of_ne (h1 : (opField w).toNat ≠ 1) (h6 : (opField w).toNat ≠ 6) :
    canonicalWord w = 0#32 ++ w.extractLsb' 0 32 := by
  unfold canonicalWord
  split
  case h_1 h => exact absurd h h1
  case h_2 h => exact absurd h h6
  case h_3 => exact BitVec.setWidth_eq_append (by decide)

/-- The opcode is not among the ignored bits (R102). -/
theorem opField_canonicalWord : opField (canonicalWord w) = opField w := by
  by_cases h1 : (opField w).toNat = 1
  · rw [canonicalWord_of_add h1]
  · by_cases h6 : (opField w).toNat = 6
    · rw [canonicalWord_of_ret h6]
      exact (BitVec.eq_of_toNat_eq h6).symm
    · rw [canonicalWord_of_ne h1 h6, opField, BitVec.extractLsb'_append_eq_of_add_le (by decide),
        BitVec.extractLsb'_extractLsb'_of_le (by decide), opField]

/-- A word that decodes is the encoding of what it decodes to, but for its ignored bits (R101, R102). -/
theorem encode_of_decodeRm (h : decodeRm w = .ok i) : encode i = .rm64 (canonicalWord w) := by
  obtain ⟨h6, rfl⟩ | ⟨hi, hr, -, -⟩ := decodeRm_eq_ok_iff.mp h
  · rw [canonicalWord_of_ret h6]
    rfl
  · have hlt : (opField w).toNat < 6 := exists_opcodeInstrs_iff.mp ⟨i, hi⟩
    rw [encode_opcodeInstrs hi, rmWord_fields hr]
    by_cases h1 : opField w = 1#8
    · rw [if_pos h1, canonicalWord_of_add (congrArg BitVec.toNat h1), constField,
        BitVec.extractLsb'_append_extractLsb']
    · rw [if_neg h1, canonicalWord_of_ne (fun h => h1 (BitVec.eq_of_toNat_eq h)) hlt.ne]

/-- A code that decodes is the encoding of its command (R91). -/
theorem encode_of_decodeCmd {b : Byte} (h : decodeCmd b = .ok i) : encode i = .cmd8 b := by
  unfold decodeCmd at h
  split at h
  case h_7 => cases h
  all_goals
    next hb =>
      cases h
      exact congrArg Code.cmd8 (BitVec.eq_of_toNat_eq hb).symm

/-- Settles O2, for each of the two formats. -/
theorem encodeOfDecodeGivesTheCanonicalCode : Obligations.EncodeOfDecodeGivesTheCanonicalCode := by
  intro c i h
  cases c with
  | cmd8 b => exact ⟨encode_of_decodeCmd h, wellFormed_of_decodeCmd h⟩
  | rm64 w => exact ⟨encode_of_decodeRm h, wellFormed_of_decodeRm h⟩

/-- Words with the same low half have the same fields there. -/
theorem extractLsb'_of_low {j n : Nat} (h : w.extractLsb' 0 32 = w'.extractLsb' 0 32) (hj : j + n ≤ 32) :
    w.extractLsb' j n = w'.extractLsb' j n := by
  rw [← BitVec.extractLsb'_extractLsb'_of_le hj, h, BitVec.extractLsb'_extractLsb'_of_le hj]

/-- The decoding of a word of opcode 0 or 2 to 5 depends on its low half alone (R102). -/
theorem decodeRm_of_low (h : w.extractLsb' 0 32 = w'.extractLsb' 0 32) (hlt : (opField w).toNat < 6)
    (hne : (opField w).toNat ≠ 1) : decodeRm w = decodeRm w' := by
  have hop : opField w = opField w' := extractLsb'_of_low h (by decide)
  have hd : dstField w = dstField w' := extractLsb'_of_low h (by decide)
  have hs : srcField w = srcField w' := extractLsb'_of_low h (by decide)
  have hr : rsvField w = rsvField w' := extractLsb'_of_low h (by decide)
  obtain ⟨i, hi⟩ := exists_opcodeInstrs_iff (d := dstField w) (s := srcField w) (c := constField w) |>.mpr hlt
  have hi' : (opcodeInstrs (dstField w') (srcField w') (constField w'))[(opField w').toNat]? = some i := by
    rw [← hop, ← hd, ← hs, opcodeInstrs_const _ _ _ (constField w) hne, hi]
  rw [decodeRm_of_lt hi, decodeRm_of_lt hi', checkOperands, checkOperands, hr, hd, hs]

/-- Settles O4: the third part, as both words are up to ignored bits the encoding of one instruction, and an ADD word
has no ignored bits. -/
theorem decodeIgnoresDontCareBits : Obligations.DecodeIgnoresDontCareBits := by
  refine ⟨fun w h => decodeRm_of_eq (congrArg BitVec.toNat h), fun w w' h hop => ?_, fun w w' i hop hw hw' => ?_⟩
  · have small : ∀ b ∈ [0#8, 2#8, 3#8, 4#8, 5#8], b.toNat < 6 ∧ b.toNat ≠ 1 := by decide
    obtain ⟨hlt, hne⟩ := small _ hop
    exact decodeRm_of_low h hlt hne
  · have heq : canonicalWord w = canonicalWord w' :=
      Code.rm64.inj ((encode_of_decodeRm hw).symm.trans (encode_of_decodeRm hw'))
    have hop' : opField w' = 1#8 := by
      rw [← opField_canonicalWord, ← heq, opField_canonicalWord]
      exact hop
    rw [canonicalWord_of_add (congrArg BitVec.toNat hop), canonicalWord_of_add (congrArg BitVec.toNat hop')] at heq
    exact heq.symm

end Word

/-- The codes that decode are the assigned ones (R91). -/
theorem mem_codes_of_decodeCmd {b : Byte} {i : Instr} (h : decodeCmd b = .ok i) :
    b ∈ [0x01#8, 0x02#8, 0x03#8, 0x04#8, 0x10#8, 0x20#8] := by
  have codes : ∀ i ∈ [.aesExpandKey, .aesEncryptBlock, .aesSingleRound, .aesSingleRoundHeavy, .rmExec, .hfFinalize],
      ∃ b ∈ [0x01#8, 0x02#8, 0x03#8, 0x04#8, 0x10#8, 0x20#8], encode i = .cmd8 b := by decide
  obtain ⟨b', hb', he⟩ := codes i (decodeCmd_ok h)
  obtain rfl : b' = b := Code.cmd8.inj (he.symm.trans (encode_of_decodeCmd h))
  exact hb'

/-- A code that R91 does not assign is an illegal command (R92). -/
theorem decodeCmd_of_unassigned {c : Byte} (hc : c ∉ [0x01#8, 0x02#8, 0x03#8, 0x04#8, 0x10#8, 0x20#8]) :
    decodeCmd c = .error .illegalCommand := by
  cases h : decodeCmd c with
  | ok i => exact absurd (mem_codes_of_decodeCmd h) hc
  | error e => rw [decodeCmd_error h]

/-- Settles O5: the six codes by evaluation. -/
theorem commandCodesAreTheAssignedOnes : Obligations.CommandCodesAreTheAssignedOnes :=
  ⟨rfl, rfl, rfl, rfl, rfl, rfl, fun _ => decodeCmd_of_unassigned⟩

/-- Settles O6: the words are the encodings by evaluation, and an encoding decodes to its instruction. -/
theorem exampleWordsDecode : Obligations.ExampleWordsDecode :=
  ⟨decodeOfEncodeGivesTheInstruction (.add 0#8 4#8 0x10#32) rfl, decodeOfEncodeGivesTheInstruction (.mul 1#8 0#8) rfl,
    decodeOfEncodeGivesTheInstruction (.ror 3#8 5#8) rfl, decodeOfEncodeGivesTheInstruction (.xor 3#8 8#8) rfl,
    decodeOfEncodeGivesTheInstruction .ret rfl, rfl, rfl, rfl, rfl, rfl⟩

end Sys2Proof.Machine
end

section
/-! PROOF. The faults of an unassigned command code and of an illegal index (R92, R97, R98, R262, R264). -/

namespace Sys2Proof.Machine

/-- Settles O13: the step decodes the code and raises the fault of R92. -/
theorem unassignedCodeOnlyFaults : Obligations.UnassignedCodeOnlyFaults := by
  intro s t c hn hc
  rw [hn.step_eq, decodeCmd_of_unassigned hc]
  rfl

/-! The index checks of an ALU instruction, DST first (R97, R98, R264). -/

theorem aluStep_of_dst {d : Byte} (s : Byte) (f : W32 → W32 → W32) (st : State) (hd : 3 < d.toNat) :
    aluStep d s f st = .next (raiseRm .illegalDst st) :=
  if_pos (decide_eq_false hd.not_ge)

theorem aluStep_of_src {d s : Byte} (f : W32 → W32 → W32) (st : State) (hd : d.toNat ≤ 3) (hs : 8 < s.toNat) :
    aluStep d s f st = .next (raiseRm .illegalSrc st) := by
  simp [aluStep, dstLegal, hd, srcLegal, hs.not_ge]

/-- Settles O42: the six terms are ALU instructions with these indexes, whose checks come first. -/
theorem illegalIndexFaultsAndWritesNothing : Obligations.IllegalIndexFaultsAndWritesNothing := by
  intro d src c i s hi
  obtain ⟨f, hf⟩ : ∃ f, aluOf i = some (d, src, f) := by
    simp only [List.mem_cons, List.not_mem_nil, or_false] at hi
    obtain rfl | rfl | rfl | rfl | rfl | rfl := hi <;> exact ⟨_, rfl⟩
  rw [exec_of_aluOf hf]
  exact ⟨aluStep_of_dst src f s, aluStep_of_src f s⟩

end Sys2Proof.Machine
end

section
/-! PROOF. How the assembler reads a line, and that every line it accepts is a well-formed instruction (R106, R107). -/

namespace Sys2Proof.Machine

/-- The mnemonics of R106, each with how its operands are read; `assemble_eq` ties them to the assembler. -/
def mnemonics : List (List Char × (List (List Char) → Option Instr)) :=
  [(['M', 'U', 'L'], asmTwo .mul), (['A', 'D', 'D'], asmAdd), (['S', 'U', 'B'], asmTwo .sub),
   (['R', 'O', 'R'], asmTwo .ror), (['R', 'O', 'L'], asmTwo .rol), (['X', 'O', 'R'], asmTwo .xor),
   (['R', 'E', 'T'], asmRet)]

/-- The mnemonic of a line that is upper-cased and stripped. -/
def lineMnemonic (l : List Char) : List Char := l.takeWhile fun c => !isBlank c

/-- What stands after the mnemonic of such a line. -/
def lineRest (l : List Char) : List Char := strip (l.dropWhile fun c => !isBlank c)

/-- The operands of such a line. -/
def lineOperands (l : List Char) : List (List Char) :=
  if lineRest l = [] then [] else (splitCommas (lineRest l)).map strip

/-- The assembler looks the mnemonic up and reads the operands as it says. -/
theorem assemble_eq (line : List Char) :
    assemble line = (mnemonics.lookup (lineMnemonic (strip (line.map Char.toUpper)))).bind fun f =>
      f (lineOperands (strip (line.map Char.toUpper))) := by
  unfold assemble
  extract_lets l m rest ops
  change _ = (mnemonics.lookup m).bind fun f => f ops
  clear_value m ops
  split_ifs
  case neg => rw [List.lookup_eq_none_iff.mpr (by simp [mnemonics, *]), Option.bind_none]
  all_goals simp [mnemonics, List.lookup_cons, *]

theorem mem_mnemonics_of_lookup {m : List Char} {f : List (List Char) → Option Instr}
    (h : mnemonics.lookup m = some f) : (m, f) ∈ mnemonics := by
  obtain ⟨l₁, l₂, hl, -⟩ := List.lookup_eq_some_iff.mp h
  exact hl ▸ List.mem_append_right l₁ (.head l₂)

/-- A line is accepted as an instruction by one of the mnemonics. -/
theorem exists_mnemonic_of_assemble {line : List Char} {i : Instr} (h : assemble line = some i) :
    ∃ p ∈ mnemonics, ∃ ops, p.2 ops = some i := by
  rw [assemble_eq] at h
  obtain ⟨f, hf, hi⟩ := Option.bind_eq_some_iff.mp h
  exact ⟨_, mem_mnemonics_of_lookup hf, _, hi⟩

/-- A register name has an index that is allowed (R97, R98, R106). -/
theorem asmReg_le {top : Nat} {l : List Char} {b : Byte} (h : asmReg top l = some b) : b.toNat ≤ top := by
  unfold asmReg at h
  split at h
  case h_1 d =>
    obtain ⟨n, -, hn⟩ := Option.bind_eq_some_iff.mp h
    split at hn
    case isTrue hle =>
      cases hn
      exact (Nat.mod_le n _).trans hle
    case isFalse => cases hn
  case h_2 => cases h

/-- The names of a destination and a source have legal indexes. -/
theorem legal_of_asmReg {ld ls : List Char} {d s : Byte} (hd : asmReg 3 ld = some d) (hs : asmReg 8 ls = some s) :
    (dstLegal d && srcLegal s) = true := by
  simp [dstLegal, srcLegal, asmReg_le hd, asmReg_le hs]

theorem asmTwo_eq_some {f : Byte → Byte → Instr} {ops : List (List Char)} {i : Instr} (h : asmTwo f ops = some i) :
    ∃ d s, i = f d s ∧ (dstLegal d && srcLegal s) = true := by
  unfold asmTwo at h
  split at h
  case h_1 ld ls =>
    obtain ⟨d, hd, h⟩ := Option.bind_eq_some_iff.mp h
    obtain ⟨s, hs, h⟩ := Option.bind_eq_some_iff.mp h
    cases h
    exact ⟨d, s, rfl, legal_of_asmReg hd hs⟩
  case h_2 => cases h

theorem asmAdd_eq_some {ops : List (List Char)} {i : Instr} (h : asmAdd ops = some i) :
    ∃ d s c, i = .add d s c ∧ (dstLegal d && srcLegal s) = true := by
  unfold asmAdd at h
  split at h
  case h_1 ld ls n =>
    obtain ⟨v, -, h⟩ := Option.bind_eq_some_iff.mp h
    split at h
    case isTrue =>
      obtain ⟨d, hd, h⟩ := Option.bind_eq_some_iff.mp h
      obtain ⟨s, hs, h⟩ := Option.bind_eq_some_iff.mp h
      cases h
      exact ⟨d, s, _, rfl, legal_of_asmReg hd hs⟩
    case isFalse => cases h
  case h_2 => cases h

theorem asmRet_eq_some {ops : List (List Char)} {i : Instr} (h : asmRet ops = some i) : i = .ret := by
  cases ops <;> cases h
  rfl

/-- An accepted line is a well-formed instruction of the `RM64` format (R106, R107). -/
theorem assemble_wellFormed {line : List Char} {i : Instr} (h : assemble line = some i) :
    i.wellFormed = true ∧ ∃ w, encode i = .rm64 w := by
  obtain ⟨p, hp, ops, hi⟩ := exists_mnemonic_of_assemble h
  simp only [mnemonics, List.mem_cons, List.not_mem_nil, or_false] at hp
  obtain rfl | rfl | rfl | rfl | rfl | rfl | rfl := hp
  case inr.inl =>
    obtain ⟨d, s, c, rfl, hw⟩ := asmAdd_eq_some hi
    exact ⟨hw, _, rfl⟩
  case inr.inr.inr.inr.inr.inr =>
    obtain rfl := asmRet_eq_some hi
    exact ⟨rfl, _, rfl⟩
  all_goals
    obtain ⟨d, s, rfl, hw⟩ := asmTwo_eq_some hi
    exact ⟨hw, _, rfl⟩

/-- Settles O7: the instruction of the line is well-formed, so its encoding decodes to it. -/
theorem assembledLinesDecode : Obligations.AssembledLinesDecode := by
  intro line i h
  obtain ⟨hwf, w, hw⟩ := assemble_wellFormed h
  have hdec := decodeOfEncodeGivesTheInstruction i hwf
  rw [hw] at hdec
  exact ⟨w, hw, hdec⟩

end Sys2Proof.Machine
end

section
/-! PROOF. The spelling of a mnemonic with its operands is read back as it was written (R91, R106). -/

namespace Sys2Proof.Machine

/-! The pieces of a line: names and numbers hold no blank and no comma. -/

/-- A piece of a line that the assembler takes whole: it is not empty and holds no blank and no comma. -/
abbrev Solid (p : List Char) : Prop := p ≠ [] ∧ ∀ c ∈ p, isBlank c = false ∧ c ≠ ','

/-- A text without a blank at either end, which `strip` leaves as it is (`strip_of_tight`). -/
abbrev Tight (l : List Char) : Prop :=
  l ≠ [] ∧ (∀ c, l.head? = some c → isBlank c = false) ∧ ∀ c, l.getLast? = some c → isBlank c = false

theorem strip_of_tight {l : List Char} (h : Tight l) : strip l = l := strip_of_ends h.2.1 h.2.2

theorem solid_of_mem_mnemonics : ∀ p ∈ mnemonics, Solid p.1 := by
  simp [mnemonics, Solid, isBlank]

theorem Solid.tight {p : List Char} (h : Solid p) : Tight p :=
  ⟨h.1, fun c hc => (h.2 c (List.mem_of_mem_head? hc)).1, fun c hc => (h.2 c (List.mem_of_getLast? hc)).1⟩

theorem Tight.append {a b : List Char} (ha : Tight a) (hb : Tight b) (x : List Char) : Tight (a ++ x ++ b) := by
  obtain ⟨hna, hha, -⟩ := ha
  obtain ⟨hnb, -, hlb⟩ := hb
  refine ⟨by simp [hnb], fun c hc => hha c ?_, fun c hc => hlb c ?_⟩
  · rwa [List.append_assoc, List.head?_append_of_ne_nil _ hna] at hc
  · rwa [List.getLast?_append_of_ne_nil _ hnb] at hc

/-- The operands of a line as they are written, with a comma and a blank between them. -/
def operandText (ops : List (List Char)) : List Char := [',', ' '].intercalate ops

@[simp] theorem operandText_singleton (p : List Char) : operandText [p] = p := List.intercalate_singleton

theorem operandText_cons_cons (p q : List Char) (ps : List (List Char)) :
    operandText (p :: q :: ps) = p ++ [',', ' '] ++ operandText (q :: ps) := by
  simp [operandText, List.intercalate_cons_cons]

theorem tight_operandText (p : List Char) (ps : List (List Char)) (h : ∀ q ∈ p :: ps, Solid q) :
    Tight (operandText (p :: ps)) := by
  induction ps generalizing p with
  | nil =>
    rw [operandText_singleton]
    exact (h p (.head _)).tight
  | cons q ps ih =>
    rw [operandText_cons_cons]
    exact (h p (.head _)).tight.append (ih q fun r hr => h r (.tail _ hr)) _

/-- A blank before the first piece is stripped with it. -/
theorem map_strip_splitCommas_blank (l : List Char) :
    (splitCommas (' ' :: l)).map strip = (splitCommas l).map strip := by
  rw [splitCommas]
  cases hl : splitCommas l with
  | nil => exact absurd hl (splitCommas_ne_nil l)
  | cons p ps => simp [strip_cons_blank (show isBlank ' ' = true from rfl)]

/-- The operands are read back as they were written. -/
theorem map_strip_splitCommas_operandText (p : List Char) (ps : List (List Char)) (h : ∀ q ∈ p :: ps, Solid q) :
    (splitCommas (operandText (p :: ps))).map strip = p :: ps := by
  have hp : Solid p := h p (.head _)
  have hcomma : ',' ∉ p := fun hc => (hp.2 _ hc).2 rfl
  induction ps generalizing p with
  | nil =>
    rw [operandText_singleton, splitCommas_of_not_mem hcomma, List.map_singleton, strip_of_tight hp.tight]
  | cons q ps ih =>
    have hq := h q (.tail _ (.head _))
    rw [operandText_cons_cons, List.append_assoc, List.cons_append, splitCommas_append hcomma, List.map_cons,
      strip_of_tight hp.tight, List.singleton_append, map_strip_splitCommas_blank,
      ih q (fun r hr => h r (.tail _ hr)) hq fun hc => (hq.2 _ hc).2 rfl]

/-- A line of a mnemonic, a blank and operands is read as that mnemonic says. -/
theorem assemble_of_spelling {line m p : List Char} {ps : List (List Char)} {f : List (List Char) → Option Instr}
    (hf : mnemonics.lookup m = some f) (h : ∀ q ∈ p :: ps, Solid q)
    (hline : line.map Char.toUpper = m ++ [' '] ++ operandText (p :: ps)) : assemble line = f (p :: ps) := by
  have hm : Solid m := solid_of_mem_mnemonics _ (mem_mnemonics_of_lookup hf)
  have htext := tight_operandText p ps h
  have hblank : ∀ c ∈ m, (!isBlank c) = true := fun c hc => by simp [(hm.2 c hc).1]
  have hstrip : strip (line.map Char.toUpper) = m ++ ' ' :: operandText (p :: ps) := by
    rw [hline, strip_of_tight (hm.tight.append htext _), List.append_assoc, List.singleton_append]
  have hmn : lineMnemonic (m ++ ' ' :: operandText (p :: ps)) = m := by
    rw [lineMnemonic, List.takeWhile_append_of_pos hblank]
    simp [isBlank]
  have hrest : lineRest (m ++ ' ' :: operandText (p :: ps)) = operandText (p :: ps) := by
    rw [lineRest, List.dropWhile_append_of_pos hblank]
    simp [isBlank, strip_cons_blank, strip_of_tight htext]
  have hops : lineOperands (m ++ ' ' :: operandText (p :: ps)) = p :: ps := by
    rw [lineOperands, hrest, if_neg htext.1, map_strip_splitCommas_operandText p ps h]
  rw [assemble_eq, hstrip, hmn, hf, Option.bind_some, hops]

/-! Digits as they are spelled, upper-cased. -/

/-- The upper-case digit of a number below 16. -/
def upperDigit (n : Nat) : Char := (Nat.digitChar n).toUpper

theorem upperDigit_plain : ∀ n < 16, isBlank (upperDigit n) = false ∧ upperDigit n ≠ ',' := by decide

theorem upperDigit_ne_X : ∀ n < 16, upperDigit n ≠ 'X' := by decide

theorem digitValue_ten_upperDigit : ∀ n < 10, digitValue 10 (upperDigit n) = some n := by decide

theorem digitValue_sixteen_upperDigit : ∀ n < 16, digitValue 16 (upperDigit n) = some n := by decide

/-- The name of a register in upper case. -/
def registerName (b : Byte) : List Char := ['R', upperDigit b.toNat]

theorem asmReg_registerName {top : Nat} {b : Byte} (hb : b.toNat ≤ top) (ht : top < 10) :
    asmReg top (registerName b) = some b := by
  simp [asmReg, registerName, digitValue_ten_upperDigit _ (hb.trans_lt ht), hb]

theorem solid_registerName {b : Byte} (hb : b.toNat < 10) : Solid (registerName b) := by
  refine ⟨List.cons_ne_nil _ _, fun c hc => ?_⟩
  obtain rfl | rfl : c = 'R' ∨ c = upperDigit b.toNat := by simpa [registerName] using hc
  · decide
  · exact upperDigit_plain _ (by omega)

/-- The digits of a number, upper-cased. -/
theorem solid_map_upperDigit {ds : List Nat} (hne : ds ≠ []) (h : ∀ n ∈ ds, n < 16) : Solid (ds.map upperDigit) := by
  refine ⟨by simpa using hne, fun c hc => ?_⟩
  obtain ⟨n, hn, rfl⟩ := List.mem_map.mp hc
  exact upperDigit_plain n (h n hn)

theorem digitsValue_map_upperDigit {base : Nat} {ds : List Nat}
    (h : ∀ n ∈ ds, digitValue base (upperDigit n) = some n) :
    digitsValue base (ds.map upperDigit) = some (Nat.ofDigits base ds.reverse) :=
  digitsValue_eq_ofDigits (List.forall₂_map_left_iff.mpr (List.forall₂_same.mpr h))

/-- A constant in decimal digits: its second character is no `X`. -/
theorem asmNumber_decimal {ds : List Nat} (hne : ds ≠ []) (h : ∀ n ∈ ds, n < 10) :
    asmNumber (ds.map upperDigit) = some (Nat.ofDigits 10 ds.reverse) := by
  have hX : 'X' ∉ ds.map upperDigit := by
    intro hmem
    obtain ⟨n, hn, hc⟩ := List.mem_map.mp hmem
    exact upperDigit_ne_X n ((h n hn).trans (by decide)) hc
  rw [← digitsValue_map_upperDigit fun n hn => digitValue_ten_upperDigit n (h n hn)]
  unfold asmNumber
  split
  case h_1 hnil => simp [hne] at hnil
  case h_2 hc => simp [hc] at hX
  case h_3 hc => simp [hc] at hX
  case h_4 => rfl

/-- A constant in hexadecimal digits. -/
theorem asmNumber_hexadecimal {ds : List Nat} (hne : ds ≠ []) (h : ∀ n ∈ ds, n < 16) :
    asmNumber ('0' :: 'X' :: ds.map upperDigit) = some (Nat.ofDigits 16 ds.reverse) := by
  rw [← digitsValue_map_upperDigit fun n hn => digitValue_sixteen_upperDigit n (h n hn)]
  cases ds with
  | nil => exact absurd rfl hne
  | cons n ns => rfl

theorem map_toUpper_digitChar (ds : List Nat) : (ds.map Nat.digitChar).map Char.toUpper = ds.map upperDigit :=
  List.map_map

theorem map_toUpper_operandSpelling (d s : Byte) :
    (operandSpelling d s).map Char.toUpper = [' '] ++ operandText [registerName d, registerName s] := rfl

/-- A line without a constant, as it is spelled. -/
theorem assemble_two {m : List Char} {f : Byte → Byte → Instr} (hf : mnemonics.lookup m = some (asmTwo f))
    (hu : m.map Char.toUpper = m) {d s : Byte} (hd : d.toNat ≤ 3) (hs : s.toNat ≤ 8) :
    assemble (m ++ operandSpelling d s) = some (f d s) := by
  have hsolid : ∀ q ∈ [registerName d, registerName s], Solid q := by
    simp only [List.forall_mem_cons]
    exact ⟨solid_registerName (by omega), solid_registerName (by omega), by simp⟩
  have hline : (m ++ operandSpelling d s).map Char.toUpper =
      m ++ [' '] ++ operandText [registerName d, registerName s] := by
    rw [List.map_append, hu, map_toUpper_operandSpelling, List.append_assoc]
  rw [assemble_of_spelling hf hsolid hline]
  simp [asmTwo, asmReg_registerName hd, asmReg_registerName hs]

/-- An ADD line as it is spelled, with the constant in either base. -/
theorem assemble_add {num : List Char} {v : Nat} (hnum : Solid (num.map Char.toUpper))
    (hv : asmNumber (num.map Char.toUpper) = some v) (hlt : v < 2 ^ 32) {d s : Byte} (hd : d.toNat ≤ 3)
    (hs : s.toNat ≤ 8) :
    assemble (['A', 'D', 'D'] ++ operandSpelling d s ++ [',', ' '] ++ num) = some (.add d s (BitVec.ofNat 32 v)) := by
  have hsolid : ∀ q ∈ [registerName d, registerName s, num.map Char.toUpper], Solid q := by
    simp only [List.forall_mem_cons]
    exact ⟨solid_registerName (by omega), solid_registerName (by omega), hnum, by simp⟩
  have hline : (['A', 'D', 'D'] ++ operandSpelling d s ++ [',', ' '] ++ num).map Char.toUpper =
      ['A', 'D', 'D'] ++ [' '] ++ operandText [registerName d, registerName s, num.map Char.toUpper] := by
    simp only [List.map_append, map_toUpper_operandSpelling, operandText_cons_cons, operandText_singleton,
      List.append_assoc]
    rfl
  rw [assemble_of_spelling (f := asmAdd) rfl hsolid hline]
  simpa [asmAdd, hv, asmReg_registerName hd, asmReg_registerName hs] using hlt

/-- Settles O60: the lines with operands by their pieces, the fixed lines by evaluation, and case is lost before the line
is read. -/
theorem spellingsAssembleToTheirInstruction : Obligations.SpellingsAssembleToTheirInstruction := by
  refine ⟨fun d s hd hs => ⟨?_, ?_, ?_, ?_, ?_, fun ds hne h hlt => ?_, fun ds hne h hlt => ?_⟩, ?_⟩
  iterate 5 exact assemble_two rfl (by decide) hd hs
  · exact assemble_add (map_toUpper_digitChar ds ▸ solid_map_upperDigit hne fun n hn => (h n hn).trans (by decide))
      (map_toUpper_digitChar ds ▸ asmNumber_decimal hne h) hlt hd hs
  · have hnum : (['0', 'x'] ++ ds.map Nat.digitChar).map Char.toUpper = '0' :: 'X' :: ds.map upperDigit :=
      congrArg (fun l => '0' :: 'X' :: l) (map_toUpper_digitChar ds)
    have hsolid : Solid ('0' :: 'X' :: ds.map upperDigit) := by
      refine ⟨List.cons_ne_nil _ _, ?_⟩
      simp only [List.forall_mem_cons]
      exact ⟨by decide, by decide, (solid_map_upperDigit hne h).2⟩
    have hline := assemble_add (hnum ▸ hsolid) (hnum ▸ asmNumber_hexadecimal hne h) hlt hd hs
    rw [← List.append_assoc] at hline
    exact hline
  · exact ⟨by decide, by decide, by decide, by decide, by decide, by decide, by decide,
      fun l l' h => ⟨by rw [assemble_eq, assemble_eq, h], by simp only [assembleCommand, h]⟩⟩

end Sys2Proof.Machine
end

section
/-! PROOF. The round and its table form (R132 to R135, R139): both are followed byte by byte, from the table entries to
the columns and from the columns to the words. -/

namespace Sys2Proof.Machine

/-- Rotating a word by `8k` bits moves each of its bytes up by `k` places (R132). -/
theorem byteOf_rotateLeft (v : W32) {k i : Nat} (hk : k < 4) (hi : i < 4) :
    byteOf (v.rotateLeft (8 * k)) i = byteOf v ((i + (4 - k)) % 4) := by
  apply BitVec.eq_of_getLsbD_eq
  intro j hj
  simp only [getLsbD_byteOf, hj, decide_true, Bool.true_and]
  rw [BitVec.getLsbD_rotateLeft_of_le (by omega)]
  by_cases h : i < k
  case pos =>
    have hlow : 8 * i + j < 8 * k := by omega
    simp only [hlow, decide_true, cond_true]
    congr 1
    omega
  case neg =>
    have hhigh : ¬8 * i + j < 8 * k := by omega
    have hw : 8 * i + j < 32 := by omega
    simp only [hhigh, hw, decide_true, decide_false, cond_false, Bool.true_and]
    congr 1
    omega

/-- The bytes of an entry of `TE0` are `(2S, S, S, 3S)` (R132). -/
theorem byteOf_te0 (a : Byte) {i : Nat} (hi : i < 4) :
    byteOf (te0 a) i = [gmul2 (sbox a), sbox a, sbox a, gmul3 (sbox a)].getD i 0#8 :=
  byteOf_append4 _ _ _ _ i hi

theorem byteOf_te1 (a : Byte) {i : Nat} (hi : i < 4) : byteOf (te1 a) i = byteOf (te0 a) ((i + 3) % 4) :=
  byteOf_rotateLeft (te0 a) (k := 1) (by decide) hi

theorem byteOf_te2 (a : Byte) {i : Nat} (hi : i < 4) : byteOf (te2 a) i = byteOf (te0 a) ((i + 2) % 4) :=
  byteOf_rotateLeft (te0 a) (k := 2) (by decide) hi

theorem byteOf_te3 (a : Byte) {i : Nat} (hi : i < 4) : byteOf (te3 a) i = byteOf (te0 a) ((i + 1) % 4) :=
  byteOf_rotateLeft (te0 a) (k := 3) (by decide) hi

/-- Byte `r` of a column step is row `r` of MixColumns over the substituted bytes of the column (R133, R134). -/
theorem byteOf_col (x : Quarters) (q : Nat) {r : Nat} (hr : r < 4) :
    byteOf (col x q) r =
      mixRow (sbox (byteOf (x.get q) 0)) (sbox (byteOf (x.get (q + 1)) 1)) (sbox (byteOf (x.get (q + 2)) 2))
        (sbox (byteOf (x.get (q + 3)) 3)) r := by
  simp only [col, byteOf_xor, byteOf_te1 _ hr, byteOf_te2 _ hr, byteOf_te3 _ hr]
  obtain rfl | rfl | rfl | rfl : r = 0 ∨ r = 1 ∨ r = 2 ∨ r = 3 := by omega
  all_goals simp [byteOf_te0, mixRow]

/-- Byte `i` of a 32-bit field of a word is a byte of the word. -/
theorem byteOf_extractLsb' (w : W64) (h : Nat) {i : Nat} (hi : i < 4) :
    byteOf (w.extractLsb' (32 * h) 32) i = byteOf w (4 * h + i) := by
  apply BitVec.eq_of_getLsbD_eq
  intro j hj
  have h32 : 8 * i + j < 32 := by omega
  simp only [getLsbD_byteOf, BitVec.getLsbD_extractLsb', hj, h32, decide_true, Bool.true_and]
  congr 1
  omega

/-- Byte `i` of quarter `q` of two words is byte `4q + i` of their block (R11, R63). -/
theorem byteOf_q4 (b0 b1 : W64) (q : Nat) {i : Nat} (hi : i < 4) :
    byteOf ((q4 b0 b1).get q) i = (b16 b0 b1).at (4 * (q % 4) + i) := by
  rw [b16_at _ _ _ (by omega)]
  have hq : q % 4 < 4 := Nat.mod_lt _ (by decide)
  simp only [Quarters.get, q4]
  obtain h | h | h | h : q % 4 = 0 ∨ q % 4 = 1 ∨ q % 4 = 2 ∨ q % 4 = 3 := by omega
  all_goals simp only [h]
  · rw [if_pos (by omega)]
    exact byteOf_extractLsb' b0 0 hi
  · rw [if_pos (by omega)]
    exact byteOf_extractLsb' b0 1 hi
  · rw [if_neg (by omega), show 4 * 2 + i - 8 = 4 * 0 + i by omega]
    exact byteOf_extractLsb' b1 0 hi
  · rw [if_neg (by omega), show 4 * 3 + i - 8 = 4 * 1 + i by omega]
    exact byteOf_extractLsb' b1 1 hi

/-- Settles O25: byte by byte, the columns of the round are those of the table form. -/
theorem roundEqualsItsTableForm : Obligations.RoundEqualsItsTableForm := by
  intro b0 b1 k0 k1 q hq
  apply eq_of_byteOf_eq
  intro r hr
  rw [byteOf_q4 _ _ _ hr, b16_w2, byteOf_xor, byteOf_col _ _ hr, Nat.mod_eq_of_lt hq, aesenc_at _ _ _ _ hq hr]
  simp only [byteOf_q4, hr, Nat.mod_eq_of_lt hq, Nat.reduceLT, Nat.add_zero]

/-- The words of two words' quarters are the words themselves (R11). -/
theorem words_q4 (a b : W64) : (q4 a b).words = (a, b) := by
  have join (w : W64) : w.extractLsb' 32 32 ++ w.extractLsb' 0 32 = w := BitVec.extractLsb'_append_extractLsb'
  simp only [Quarters.words, q4, join]

/-- The quarters of two words joined from halves are the halves (R11). -/
theorem q4_append (a b c d : W32) : q4 (b ++ a) (d ++ c) = { q0 := a, q1 := b, q2 := c, q3 := d } := by
  simp only [q4, BitVec.extractLsb'_append_eq_left, BitVec.extractLsb'_append_eq_right]

/-- The table form of R139: the words of the round are joined from its four columns. -/
theorem singleRound_eq_columns (b0 b1 k0 k1 : W64) :
    singleRound b0 b1 k0 k1 =
      ((col (q4 b0 b1) 1 ^^^ (q4 k0 k1).q1) ++ (col (q4 b0 b1) 0 ^^^ (q4 k0 k1).q0),
        (col (q4 b0 b1) 3 ^^^ (q4 k0 k1).q3) ++ (col (q4 b0 b1) 2 ^^^ (q4 k0 k1).q2)) := by
  have column := roundEqualsItsTableForm b0 b1 k0 k1
  calc singleRound b0 b1 k0 k1
    _ = (q4 (singleRound b0 b1 k0 k1).1 (singleRound b0 b1 k0 k1).2).words := (words_q4 _ _).symm
    _ = _ := congrArg Quarters.words ((Quarters.mk.injEq ..).mpr
      ⟨column 0 (by decide), column 1 (by decide), column 2 (by decide), column 3 (by decide)⟩)

end Sys2Proof.Machine
end

section
/-! PROOF. AddRoundKey is the last thing a round does (R134), on bytes and on words. -/

namespace Sys2Proof.Machine

/-- A little-endian word XORs byte by byte. -/
theorem wordLe_xor (f g : Nat → Byte) : wordLe (fun i => f i ^^^ g i) = wordLe f ^^^ wordLe g := by
  rw [← wordLe_byteOf (wordLe f ^^^ wordLe g)]
  exact wordLe_congr fun i hi => by rw [byteOf_xor, byteOf_wordLe f i hi, byteOf_wordLe g i hi]

/-- AddRoundKey XORs the words of the block with those of the key. -/
theorem w2_addRoundKey (v k : Block) :
    w2 (addRoundKey v k) = ((w2 v).1 ^^^ (w2 k).1, (w2 v).2 ^^^ (w2 k).2) := by
  have byte {i : Nat} (hi : i < 16) : (addRoundKey v k).at i = v.at i ^^^ k.at i := Block.at_ofFn _ i hi
  simp only [w2, ← wordLe_xor]
  rw [wordLe_congr fun i hi => byte (by omega), wordLe_congr fun i hi => byte (by omega)]

/-- Settles O30: the key is added to the block's mixed columns, and the zero key leaves them. -/
theorem singleRoundXorsItsKeyLast : Obligations.SingleRoundXorsItsKeyLast := by
  intro b0 b1 k0 k1
  simp only [singleRound, aesenc, w2_addRoundKey, w2_b16, BitVec.xor_zero]

end Sys2Proof.Machine
end

section
/-! PROOF. The commands of the AESU complete with their results and write nothing else (R137 to R142). -/

namespace Sys2Proof.Machine

/-- Both registers of a pair count as written (R43). -/
theorem RegBank.isWritten_pair {w : Nat} (p : BitVec w × BitVec w) {i : Nat} (h : i < 2) :
    (RegBank.pair p).isWritten i = true := RegBank.isWritten_filled _ _ h

section Results

variable (i : Instr) (c : Context) (slot : BitVec 7) (xs : List RegRef)

/-! The results depend neither on the start of the command nor on the record of its reads. -/

@[simp] theorem commandEffect_start_noteReads_rk :
    (commandEffect i (c.start.noteReads slot xs)).rk = (commandEffect i c).rk := by
  cases i <;> simp [commandEffect]

@[simp] theorem commandEffect_start_noteReads_out :
    (commandEffect i (c.start.noteReads slot xs)).out = (commandEffect i c).out := by
  cases i <;> simp [commandEffect]

@[simp] theorem commandEffect_start_noteReads_kout :
    (commandEffect i (c.start.noteReads slot xs)).kout = (commandEffect i c).kout := by
  cases i <;> simp [commandEffect]

end Results

/-- An AESU command writes `RK`, `OUT` and `KOUT` at most (R142). -/
theorem commandEffect_aesu {i : Instr}
    (hi : i ∈ [.aesExpandKey, .aesEncryptBlock, .aesSingleRound, .aesSingleRoundHeavy]) (c : Context) :
    commandEffect i c =
      { c with rk := (commandEffect i c).rk, out := (commandEffect i c).out, kout := (commandEffect i c).kout } := by
  simp only [List.mem_cons, List.not_mem_nil, or_false] at hi
  obtain rfl | rfl | rfl | rfl := hi <;> simp only [commandEffect]

/-- What an AESU command answers: the results computed from the context as it stood, `DONE`, and everything else but
the fault record as it was (R141, R142). -/
theorem exec_aesu_completes {i : Instr}
    (hi : i ∈ [.aesExpandKey, .aesEncryptBlock, .aesSingleRound, .aesSingleRoundHeavy]) (s : State) :
    ∃ t, exec i s = .next t ∧ t.ctx.rk = (commandEffect i s.ctx).rk ∧ t.ctx.out = (commandEffect i s.ctx).out ∧
      t.ctx.kout = (commandEffect i s.ctx).kout ∧ t.ctx.status.state = .done ∧
      t = { s with ctx := { s.ctx with
        rk := t.ctx.rk, out := t.ctx.out, kout := t.ctx.kout, status := t.ctx.status, uninit := t.ctx.uninit } } := by
  refine ⟨{ s with ctx := (commandEffect i (s.ctx.start.noteReads 0#7 (operandsOf i))).finish }, exec_aesu hi s,
    by simp, by simp, by simp, rfl, ?_⟩
  rw [commandEffect_aesu hi, Context.noteReads_eq]
  rfl

/-- Settles O26: the round of R139 in its table form. -/
theorem singleRoundCompletesWithItsColumns : Obligations.SingleRoundCompletesWithItsColumns := by
  intro s x kq
  obtain ⟨t, ht, hrk, hout, hkout, hdone, hframe⟩ := exec_aesu_completes (i := .aesSingleRound) (by decide) s
  simp only [commandEffect] at hrk hout hkout
  rw [singleRound_eq_columns] at hout
  rw [hrk, hkout] at hframe
  refine ⟨t, ht, ?_, ?_, ?_, ?_, hdone, hframe⟩
  · rw [hout, RegBank.get_pair_zero]
  · rw [hout, RegBank.get_pair_one]
  · rw [hout, RegBank.isWritten_pair _ (by decide)]
  · rw [hout, RegBank.isWritten_pair _ (by decide)]

/-- Settles O27: the four turns of R140's loop compute to the words the statement unrolls. -/
theorem heavyRoundCompletesWithTheUpdatedKey : Obligations.HeavyRoundCompletesWithTheUpdatedKey := by
  intro s x x0 x1 x2 x3 kq k0 y0 k1 y1 k2 y2 k3
  obtain ⟨t, ht, hrk, hout, hkout, hdone, hframe⟩ := exec_aesu_completes (i := .aesSingleRoundHeavy) (by decide) s
  simp only [commandEffect] at hrk hout hkout
  have hloop : singleRoundHeavy (s.ctx.inp.get 0) (s.ctx.inp.get 1) (s.ctx.rkey.get 0) (s.ctx.rkey.get 1) =
      (k1 ++ k0, k3 ++ k2) := rfl
  rw [hloop] at hout hkout
  rw [hrk] at hframe
  refine ⟨t, ht, ?_, ?_, ?_, ?_, fun i hi => ?_, hdone, hframe⟩
  · rw [hout, RegBank.get_pair_zero]
  · rw [hout, RegBank.get_pair_one]
  · rw [hkout, RegBank.get_pair_zero]
  · rw [hkout, RegBank.get_pair_one]
  · rw [hout, hkout, RegBank.isWritten_pair _ hi]
    exact ⟨rfl, rfl⟩

end Sys2Proof.Machine
end

section
/-! PROOF. The key schedule: the halves of the key, then the recurrence (R136, R137). -/

namespace Sys2Proof.Machine

/-- `RotWord` in the words of R136. -/
theorem rotWord_eq (t : W32) : rotWord t = t.extractLsb' 0 24 ++ t.extractLsb' 24 8 := by
  apply BitVec.eq_of_getLsbD_eq
  intro j hj
  rw [rotWord, BitVec.getLsbD_rotateLeft_of_le (by decide), BitVec.getLsbD_append]
  by_cases h : j < 8
  case pos => simp [h]
  case neg => simp [h, hj, show j - 8 < 24 by omega]

/-- `SubWord` in the words of R136. -/
theorem subWord_eq (t : W32) : subWord t = sboxBytes t := rfl

/-- The bytes of a half of a key word, most significant first. -/
theorem bswap32_extractLsb' (k : W64) (h : Nat) :
    bswap32 (k.extractLsb' (32 * h) 32) = byteOf k (4 * h) ++ byteOf k (4 * h + 1) ++ byteOf k (4 * h + 2) ++
      byteOf k (4 * h + 3) := by
  simp only [bswap32, byteOf_extractLsb', Nat.reduceLT, Nat.add_zero]

theorem keyHalves_getD (key : Nat → W64) {i : Nat} (hi : i < 8) :
    (keyHalves key).getD i 0#32 = bswap32 ((key (i / 2)).extractLsb' (32 * (i % 2)) 32) := by
  simp [keyHalves, List.getD_eq_getElem?_getD, hi]

/-- The first eight words of the schedule are the halves of the key. -/
theorem expandKey_getD_of_lt (key : Nat → W64) {i : Nat} (hi : i < 8) :
    (expandKey key).getD i 0#32 = bswap32 ((key (i / 2)).extractLsb' (32 * (i % 2)) 32) := by
  rw [expandKey, scheduleGrow_getD_of_lt _ _ _ (by rwa [keyHalves_length]), keyHalves_getD _ hi]

/-- Every later word of the schedule is given by the recurrence. -/
theorem expandKey_getD (key : Nat → W64) {i : Nat} (h8 : 8 ≤ i) (hi : i < 40) :
    (expandKey key).getD i 0#32 =
      (expandKey key).getD (i - 8) 0#32 ^^^ scheduleTerm i ((expandKey key).getD (i - 1) 0#32) :=
  scheduleGrow_getD 32 (keyHalves key) i (by rw [keyHalves_length]) (by rwa [keyHalves_length])
    (by rwa [keyHalves_length])

/-- The round constants as 32-bit words. -/
theorem setWidth_rcon (j : Nat) :
    (rcon j).setWidth 32 = [0x01#32, 0x02#32, 0x04#32, 0x08#32].getD j 0#32 := by
  obtain rfl | rfl | rfl | rfl | h : j = 0 ∨ j = 1 ∨ j = 2 ∨ j = 3 ∨ 4 ≤ j := by omega
  iterate 4 rfl
  rw [rcon, List.getD_eq_default _ _ h, List.getD_eq_default _ _ h]
  rfl

/-- Settles O28: the words of `RK` are those of the schedule, with its primitives in the words of R136. -/
theorem expandKeyCompletesWithTheRecurrence : Obligations.ExpandKeyCompletesWithTheRecurrence := by
  intro s
  obtain ⟨t, ht, hrk, hout, hkout, hdone, hframe⟩ := exec_aesu_completes (i := .aesExpandKey) (by decide) s
  simp only [commandEffect] at hrk hout hkout
  have hword {i : Nat} (hi : i < 40) : t.ctx.rk.get i = (expandKey s.ctx.key.get).getD i 0#32 := by
    rw [hrk, RegBank.get_filled _ _ hi]
  rw [hout, hkout] at hframe
  refine ⟨t, ht, fun i hi => ?_, fun i h8 hi => ?_, fun i hi => ?_, hdone, hframe⟩
  · have hlow : 2 * i / 2 = i ∧ 2 * i % 2 = 0 := by omega
    have hhigh : (2 * i + 1) / 2 = i ∧ (2 * i + 1) % 2 = 1 := by omega
    constructor
    · rw [hword (by omega), expandKey_getD_of_lt _ (by omega), hlow.1, hlow.2, bswap32_extractLsb']
      rfl
    · rw [hword (by omega), expandKey_getD_of_lt _ (by omega), hhigh.1, hhigh.2, bswap32_extractLsb']
      rfl
  · rw [hword hi, hword (by omega), hword (by omega), expandKey_getD _ h8 hi, scheduleTerm, subWord_eq, subWord_eq,
      rotWord_eq, setWidth_rcon]
  · rw [hrk, RegBank.isWritten_filled _ _ hi]

end Sys2Proof.Machine
end

section
/-! PROOF. The ten rounds of R138 are single rounds of R139 under byte-swapped key words (R64). -/

namespace Sys2Proof.Machine

/-- Byte `i` of a byte-swapped word (R9). -/
theorem byteOf_bswap32 (v : W32) {i : Nat} (hi : i < 4) : byteOf (bswap32 v) i = byteOf v (3 - i) := by
  rw [bswap32, byteOf_append4 _ _ _ _ i hi]
  obtain rfl | rfl | rfl | rfl : i = 0 ∨ i = 1 ∨ i = 2 ∨ i = 3 := by omega
  all_goals rfl

/-- A quarter of the words joined from four byte-swapped round-key words is one of these. -/
theorem q4_bswap32_get (f : Nat → W32) {j : Nat} (hj : j < 4) :
    (q4 (bswap32 (f 1) ++ bswap32 (f 0)) (bswap32 (f 3) ++ bswap32 (f 2))).get j = bswap32 (f j) := by
  rw [q4_append]
  obtain rfl | rfl | rfl | rfl : j = 0 ∨ j = 1 ∨ j = 2 ∨ j = 3 := by omega
  all_goals rfl

/-- The bytes of four round-key words are the block view of the words joined from them, byte-swapped (R64). -/
theorem roundKeyBytes_eq_b16 (f : Nat → W32) :
    roundKeyBytes f = b16 (bswap32 (f 1) ++ bswap32 (f 0)) (bswap32 (f 3) ++ bswap32 (f 2)) := by
  apply Block.ext_at
  intro i hi
  have hj : i / 4 < 4 := by omega
  have hr : i % 4 < 4 := by omega
  have hbyte := byteOf_q4 (bswap32 (f 1) ++ bswap32 (f 0)) (bswap32 (f 3) ++ bswap32 (f 2)) (i / 4) hr
  rw [Nat.mod_eq_of_lt hj, Nat.div_add_mod, q4_bswap32_get f hj, byteOf_bswap32 _ hr] at hbyte
  rw [← hbyte, roundKeyBytes, Block.at_ofFn _ i hi]

/-- Round `r` of R138 on the block's words: a single round under the byte-swapped words `RK[4r..4r+3]`. -/
def wordRound (rk : Nat → W32) (b : W64 × W64) (r : Nat) : W64 × W64 :=
  singleRound b.1 b.2 (bswap32 (rk (4 * r + 1)) ++ bswap32 (rk (4 * r)))
    (bswap32 (rk (4 * r + 3)) ++ bswap32 (rk (4 * r + 2)))

/-- A round of R138 on the block is one on its words. -/
theorem w2_aesenc_roundKeyBytes (rk : Nat → W32) (r : Nat) (s : Block) :
    w2 (aesenc s (roundKeyBytes fun j => rk (4 * r + j))) = wordRound rk (w2 s) r := by
  rw [roundKeyBytes_eq_b16, wordRound, singleRound, b16_w2]
  simp only [Nat.add_zero]

/-- The rounds of R138, seen on words. -/
theorem w2_encryptRounds (rk : Nat → W32) (n r : Nat) (s : Block) :
    w2 (encryptRounds rk n r s) = (List.range' r n).foldl (wordRound rk) (w2 s) := by
  induction n generalizing r s with
  | zero => rfl
  | succ n ih =>
    rw [encryptRounds, ih, w2_aesenc_roundKeyBytes, List.range'_succ, List.foldl_cons]

/-- Settles O29: the rounds of R138 are folded over words, from the words of `IN`. -/
theorem encryptBlockCompletesAsTenSingleRounds : Obligations.EncryptBlockCompletesAsTenSingleRounds := by
  intro s
  obtain ⟨t, ht, hrk, hout, hkout, hdone, hframe⟩ := exec_aesu_completes (i := .aesEncryptBlock) (by decide) s
  simp only [commandEffect] at hrk hout hkout
  have hrounds : encryptBlock s.ctx.rk.get (s.ctx.inp.get 0) (s.ctx.inp.get 1) =
      (List.range 10).foldl (wordRound s.ctx.rk.get) (s.ctx.inp.get 0, s.ctx.inp.get 1) := by
    rw [encryptBlock, w2_encryptRounds, w2_b16, ← List.range_eq_range']
  rw [hrounds] at hout
  rw [hrk, hkout] at hframe
  refine ⟨t, ht, ?_, ?_, ?_, hdone, hframe⟩
  · rw [hout, RegBank.get_pair_zero, RegBank.get_pair_one]
    rfl
  · rw [hout, RegBank.isWritten_pair _ (by decide)]
  · rw [hout, RegBank.isWritten_pair _ (by decide)]

end Sys2Proof.Machine
end

section
/-! PROOF. The S-box is the affine image of the inverse (R130), read backwards: the affine map has an inverse, and what
it makes of each entry of the table is the multiplicative inverse of the entry's index. -/

namespace Sys2Proof.Machine

/-- The inverse of the affine map `A` of R130; `sboxAffine_sboxAffineInv` ties it to `A`. -/
def sboxAffineInv (y : Byte) : Byte := y.rotateLeft 1 ^^^ y.rotateLeft 3 ^^^ y.rotateLeft 6 ^^^ 0x05#8

/-- Checked on all 256 bytes. -/
theorem sboxAffine_sboxAffineInv : ∀ y : Byte, sboxAffine (sboxAffineInv y) = y := by decide

/-- The table's content, checked entry by entry: what `A` is applied to is the inverse of the index. -/
theorem gfMul_sboxAffineInv_sbox : ∀ a : Byte, a ≠ 0#8 → gfMul a (sboxAffineInv (sbox a)) = 1#8 := by decide

/-- Settles O23: the inverse of `a` is read off its entry by the inverse of the affine map. -/
theorem sboxIsTheAffineImageOfTheInverse : Obligations.SboxIsTheAffineImageOfTheInverse :=
  ⟨rfl, fun a ha =>
    ⟨sboxAffineInv (sbox a), gfMul_sboxAffineInv_sbox a ha, (sboxAffine_sboxAffineInv (sbox a)).symm⟩⟩

end Sys2Proof.Machine
end

section
/-! PROOF. The six ALU instructions: the result in `R[d]`, the frame, `PC` and the cap (R184 to R193, R195). -/

namespace Sys2Proof.Machine

theorem exists_aluOf_of_mem {d r : Byte} {c : W32} {i : Instr}
    (hi : i ∈ [.mul d r, .add d r c, .sub d r, .ror d r, .rol d r, .xor d r]) : ∃ f, aluOf i = some (d, r, f) := by
  simp only [List.mem_cons, List.not_mem_nil, or_false] at hi
  obtain rfl | rfl | rfl | rfl | rfl | rfl := hi <;> exact ⟨_, rfl⟩

/-! What an ALU instruction makes of each part of the context that it changes. -/

section Effect

variable (d r : Byte) (f : W32 → W32 → W32) (c : Context)

@[simp] theorem aluEffect_r : (aluEffect d r f c).r = c.r.set d.toNat (f (c.r.get d.toNat) (c.r.get r.toNat)) := by
  simp [aluEffect]

@[simp] theorem aluEffect_pc : (aluEffect d r f c).pc = c.pc + 1#7 := by simp [aluEffect]

@[simp] theorem aluEffect_uninit : (aluEffect d r f c).uninit =
    (c.noteReads c.pc [{ space := .r, index := d.toNat }, { space := .r, index := r.toNat }]).uninit := by
  simp [aluEffect]

/-- The run goes on with `STATUS` as it was, except from slot 69 (R185, R186). -/
theorem aluEffect_status (hp : c.pc.toNat ≤ 69) : (aluEffect d r f c).status =
    if c.pc.toNat = 69 then { c.status with state := .done, cap := true, fpc := 70#7 } else c.status := by
  have hcap : c.pc + 1#7 = 70#7 ↔ c.pc.toNat = 69 := by
    rw [← BitVec.toNat_inj, pc_succ_toNat hp, BitVec.toNat_ofNat]
    omega
  simp only [aluEffect, Context.advance_status, Context.noteReads_pc, Context.noteReads_status, hcap]

/-- An ALU instruction changes four parts of the context at most. -/
theorem aluEffect_eq : aluEffect d r f c = { c with
    r := (aluEffect d r f c).r, pc := (aluEffect d r f c).pc, status := (aluEffect d r f c).status,
    uninit := (aluEffect d r f c).uninit } := by
  obtain ⟨u, -, hu⟩ := aluEffect_noteReads d r f c
  rw [hu, Context.advance_eq]

end Effect

section Alu

variable {i : Instr} {d r : Byte} {f : W32 → W32 → W32}

/-- An ALU instruction with legal indexes completes (R97, R98, R184). -/
theorem exec_alu_of_le (ha : aluOf i = some (d, r, f)) (hd : d.toNat ≤ 3) (hr : r.toNat ≤ 8) (s : State) :
    exec i s = .next (s.mapCtx (aluEffect d r f)) := by
  rw [exec_of_aluOf ha, aluStep_legal f s (decide_eq_true hd) (decide_eq_true hr)]

/-- It leaves its result, made of the operands as they were before, in `R[d]` (R184). -/
theorem exec_alu_result (ha : aluOf i = some (d, r, f)) (hd : d.toNat ≤ 3) (hr : r.toNat ≤ 8) (s : State) :
    ∃ t, exec i s = .next t ∧ t.ctx.r.get d.toNat = f (s.ctx.r.get d.toNat) (s.ctx.r.get r.toNat) := by
  refine ⟨_, exec_alu_of_le ha hd hr s, ?_⟩
  rw [State.mapCtx_ctx, aluEffect_r, RegBank.get_set_self _ _ _ (by omega)]

end Alu

/-! The rotations as shifts are those of the library, a shift of zero included (R191, R192). -/

theorem aluRor_eq_rotateRight (a b : W32) : aluRor a b = a.rotateRight b.toNat := by
  rw [aluRor, BitVec.rotateRight_def]
  split
  case isTrue h => simp [h]
  case isFalse => rfl

theorem aluRol_eq_rotateLeft (a b : W32) : aluRol a b = a.rotateLeft b.toNat := by
  rw [aluRol, BitVec.rotateLeft_def]
  split
  case isTrue h => simp [h, BitVec.ushiftRight_eq_zero]
  case isFalse => rfl

theorem getLsbD_aluRor (a b : W32) {j : Nat} (hj : j < 32) :
    (aluRor a b).getLsbD j = a.getLsbD ((j + b.toNat % 32) % 32) := by
  rw [aluRor_eq_rotateRight, BitVec.getLsbD_rotateRight]
  by_cases h : j < 32 - b.toNat % 32
  case pos =>
    have hk : (j + b.toNat % 32) % 32 = b.toNat % 32 + j := by omega
    simp [h, hk]
  case neg =>
    have hk : (j + b.toNat % 32) % 32 = j - (32 - b.toNat % 32) := by omega
    simp [h, hk, hj]

theorem getLsbD_aluRol (a b : W32) {j : Nat} (hj : j < 32) :
    (aluRol a b).getLsbD ((j + b.toNat % 32) % 32) = a.getLsbD j := by
  rw [aluRol_eq_rotateLeft, BitVec.getLsbD_rotateLeft]
  by_cases h : (j + b.toNat % 32) % 32 < b.toNat % 32
  case pos =>
    have hk : 32 - b.toNat % 32 + (j + b.toNat % 32) % 32 = j := by omega
    rw [decide_eq_true h, cond_true, hk]
  case neg =>
    have hk : (j + b.toNat % 32) % 32 - b.toNat % 32 = j := by omega
    rw [decide_eq_false h, cond_false, hk, decide_eq_true (Nat.mod_lt _ (by decide)), Bool.true_and]

/-- Settles O36: the rotation of the library, bit by bit. -/
theorem rorCompletesWithTheRotation : Obligations.RorCompletesWithTheRotation := by
  intro d src s hd hs
  obtain ⟨t, ht, hv⟩ := exec_alu_result (i := .ror d src) rfl hd hs s
  exact ⟨t, ht, fun j hj => by rw [hv, getLsbD_aluRor _ _ hj]⟩

/-- Settles O37: the rotation of the library, bit by bit. -/
theorem rolCompletesWithTheRotation : Obligations.RolCompletesWithTheRotation := by
  intro d src s hd hs
  obtain ⟨t, ht, hv⟩ := exec_alu_result (i := .rol d src) rfl hd hs s
  exact ⟨t, ht, fun j hj => by rw [hv, getLsbD_aluRol _ _ hj]⟩

/-- Settles O40: `R[d]` is written by a write of the bank, and a record is made only of an unwritten operand. -/
theorem aluInstructionWritesOneRegister : Obligations.AluInstructionWritesOneRegister := by
  intro d src c i s t hd hs hi h
  obtain ⟨f, hf⟩ := exists_aluOf_of_mem hi
  obtain rfl := Host.Outcome.next.inj ((exec_alu_of_le hf hd hs s).symm.trans h)
  refine ⟨congrArg (fun x => { s with ctx := x }) (aluEffect_eq d src f s.ctx), ?_⟩
  simp only [State.mapCtx_ctx, aluEffect_r, aluEffect_uninit]
  refine ⟨RegBank.isWritten_set_self _ _ _ (by omega), fun j hj => ?others, fun hwd hws => ?record⟩
  case others => exact ⟨RegBank.get_set_ne _ _ _ _ hj.symm, RegBank.isWritten_set_ne _ _ _ _ hj.symm⟩
  case record => rw [Context.noteReads_of_written _ _ _ (by simp [Context.isWritten, hwd, hws])]

/-- Settles O41: `PC` becomes 70 from slot 69 alone. -/
theorem aluInstructionAdvancesOrMeetsTheCap : Obligations.AluInstructionAdvancesOrMeetsTheCap := by
  intro d src c i s t hd hs hp hi h
  obtain ⟨f, hf⟩ := exists_aluOf_of_mem hi
  obtain rfl := Host.Outcome.next.inj ((exec_alu_of_le hf hd hs s).symm.trans h)
  rw [State.mapCtx_ctx, aluEffect_pc, aluEffect_status d src f _ hp]
  exact ⟨pc_succ_toNat hp, fun hlt => if_neg hlt.ne, fun heq => if_pos heq⟩

/-- Settles O33: the product of words is the one modulo `2^32`. -/
theorem mulCompletesWithTheLowProduct : Obligations.MulCompletesWithTheLowProduct := by
  intro d src s hd hs
  obtain ⟨t, ht, hv⟩ := exec_alu_result (i := .mul d src) rfl hd hs s
  exact ⟨t, ht, by rw [hv, aluMul, BitVec.toNat_mul]⟩

/-- Settles O34: the two sums of words are one sum modulo `2^32`. -/
theorem addCompletesWithTheSumAndConstant : Obligations.AddCompletesWithTheSumAndConstant := by
  intro d src c s hd hs
  obtain ⟨t, ht, hv⟩ := exec_alu_result (i := .add d src c) rfl hd hs s
  exact ⟨t, ht, by rw [hv, aluAdd, BitVec.toNat_add, BitVec.toNat_add, Nat.mod_add_mod]⟩

/-- Settles O35: a difference of words below zero is the one raised by `2^32`. -/
theorem subCompletesWithTheDifference : Obligations.SubCompletesWithTheDifference := by
  intro d src s hd hs
  obtain ⟨t, ht, hv⟩ := exec_alu_result (i := .sub d src) rfl hd hs s
  refine ⟨t, ht, ?_⟩
  rw [hv, aluSub, BitVec.toNat_sub]
  omega

/-- Settles O38: bit by bit. -/
theorem xorCompletesBitwise : Obligations.XorCompletesBitwise := by
  intro d src s hd hs
  obtain ⟨t, ht, hv⟩ := exec_alu_result (i := .xor d src) rfl hd hs s
  exact ⟨t, ht, fun j _ => by rw [hv, aluXor, BitVec.getLsbD_xor]⟩

end Sys2Proof.Machine
end

section
/-! PROOF. The RM step and the run that is made of such steps: its start, its faults, its end (R180 to R182, R194, R197,
R262). -/

namespace Sys2Proof.Machine

/-- The fetch of a written slot changes nothing, not even the record (R43, R182). -/
theorem fetched_of_written {s : State} (hw : s.ctx.pmem.isWritten s.ctx.pc.toNat = true) : fetched s = s := by
  rw [fetched, State.mapCtx, Context.noteReads_of_written _ _ _ (by simpa [Context.isWritten] using hw)]

/-- A decode fault writes `STATUS` alone; beside it the fetch may set the record (R262). -/
theorem raiseRm_fetched (e : Cause) (s : State) : raiseRm e (fetched s) = { s with ctx := { s.ctx with
    status := .faulted e s.ctx.pc, uninit := (fetched s).ctx.uninit } } := by
  simp [raiseRm, raiseFault, fetched, State.mapCtx]

/-- Settles O43: the step is the fetch and the fault of the decoder's cause. -/
theorem illegalWordFaultsPrecisely : Obligations.IllegalWordFaultsPrecisely := by
  intro s t c hn hp hd
  have hstep := hn.step_eq.trans (rmStep_of_error hp hd)
  rw [raiseRm_fetched] at hstep
  exact ⟨_, hstep, rfl, rfl, fun hw => congrArg (·.ctx.uninit) (fetched_of_written hw)⟩

/-- A run with no input waiting ends before it has taken its steps up to slot 69, by induction on how many are left. -/
theorem exists_run_ended (n : Nat) {s : State} (hi : s.inputs = []) (hb : s.ctx.busy = true)
    (hp : s.ctx.pc.toNat ≤ 69) (hn : 70 ≤ s.ctx.pc.toNat + n) :
    ∃ m t, m ≤ n ∧ Host.Core.run core m s = .next t ∧
      (t.ctx.status.state = .done ∨ t.ctx.status.state = .fault) := by
  induction n generalizing s with
  | zero => omega
  | succ n ih =>
    obtain ⟨u, hu⟩ := rmStep_completes hp
    have hstep : step s = .next u := (NextRm.rest hi hb).step_eq.trans hu
    obtain ⟨hin, -, hrun⟩ := rmStep_progress hu hb
    rw [← or_assoc] at hrun
    obtain hend | ⟨hbu, hpc, hpu⟩ := hrun
    case inl => exact ⟨1, u, by omega, run_succ 0 hstep, hend⟩
    case inr =>
      obtain ⟨m, v, hm, hv, hend⟩ := ih (hin.trans hi) hbu hpu (by omega)
      exact ⟨m + 1, v, by omega, (run_succ m hstep).trans hv, hend⟩

/-- Settles O45: at most 70 slots are left to the run, whatever slot it is at. -/
theorem everyRunEndsWithinSeventySteps : Obligations.EveryRunEndsWithinSeventySteps :=
  fun s hi hb hp => exists_run_ended 70 hi hb hp (Nat.le_add_left 70 s.ctx.pc.toNat)

/-- Settles O31: `execRmExec` writes the two fields and no other. -/
theorem runStartsAtSlotZero : Obligations.RunStartsAtSlotZero := fun _ => rfl

/-- Settles O32: `fetched` is the block in which the fetch is noted. -/
theorem stepRunsTheDecodedInstruction : Obligations.StepRunsTheDecodedInstruction := by
  intro s t i hn hp hd
  exact hn.step_eq.trans (rmStep_of_ok hp hd)

/-- Settles O39: `execRet` writes `STATUS` and no other register. -/
theorem retEndsTheRunAndChangesNothingElse : Obligations.RetEndsTheRunAndChangesNothingElse := fun _ => rfl

/-- Settles O44: the RM step looks at `PC` before it fetches. -/
theorem noFetchBeyondTheCap : Obligations.NoFetchBeyondTheCap := by
  intro s t hn hp
  exact hn.step_eq.trans (if_pos hp)

end Sys2Proof.Machine
end

section
/-! PROOF. `HF_FINALIZE`: the digest and the selector it leaves, and what it and a lease do to a pool (R230 to R241). -/

namespace Sys2Proof.Machine

/-- `HASH_k` by the values of the selector (R232). -/
theorem hashOf_eq (k : BitVec 2) (m : Vector Byte 200) :
    hashOf k m = if k = 0#2 then Config.hash0 m else if k = 1#2 then Config.hash1 m
      else if k = 2#2 then Config.hash2 m else Config.hash3 m := by
  obtain rfl | rfl | rfl | rfl : k = 0#2 ∨ k = 1#2 ∨ k = 2#2 ∨ k = 3#2 := by revert k; decide
  all_goals rfl

/-- Byte `i` of word `k` of the digest registers (R66). -/
theorem byteOf_digestWord (d : Vector Byte 32) (k : Nat) {i : Nat} (hi : i < 8) :
    byteOf (digestWord d k) i = d[8 * k + i]?.getD 0#8 := byteOf_wordLe _ i hi

/-- The digest registers hold the digest byte by byte (R66). -/
theorem byteOf_filled_digestWord (d : Vector Byte 32) (i : Fin 32) :
    byteOf ((RegBank.filled 4 (digestWord d)).get (i / 8)) (i % 8) = d[i] := by
  rw [RegBank.get_filled _ _ (by omega), byteOf_digestWord d _ (Nat.mod_lt _ (by decide)), Nat.div_add_mod]
  simp

/-- What `HF_FINALIZE` answers: the selector and the digest of the state words as they stood, `DONE`, and everything
else but the pools, the count of leases and the fault record as it was (R230, R231). -/
theorem exec_hfFinalize_completes (s : State) :
    ∃ t, exec .hfFinalize s = .next t ∧ t.ctx.sel = (s.ctx.st.get 0).extractLsb' 0 2 ∧
      t.ctx.digest = .filled 4 (digestWord (hashOf ((s.ctx.st.get 0).extractLsb' 0 2) (stateBytes s.ctx.st.get))) ∧
      t.ctx.status.state = .done ∧
      t = { s with pool := t.pool, leases := t.leases, ctx := { s.ctx with
        sel := t.ctx.sel, digest := t.ctx.digest, status := t.ctx.status, uninit := t.ctx.uninit } } := by
  refine ⟨_, execHfFinalize_eq s, rfl, rfl, rfl, ?_⟩
  rw [Context.noteReads_eq]
  rfl

/-- The pools after `HF_FINALIZE`: one finalization in the pool of the selector, the others as they were (R230). -/
theorem exec_hfFinalize_poolOf {s t : State} (h : exec .hfFinalize s = .next t) (k : BitVec 2) :
    t.poolOf k = if t.ctx.sel = k then
      (finalizeIn t.ctx.sel (Config.leasePick s.leases) (stateBytes s.ctx.st.get).toList (s.poolOf t.ctx.sel)).2
      else s.poolOf k := by
  obtain rfl := Host.Outcome.next.inj ((execHfFinalize_eq s).symm.trans h)
  exact poolOf_set rfl k

/-- Settles O46: the selector and the digest are those of the command's completion, read byte by byte. -/
theorem finalizeCompletesWithTheSelectedDigest : Obligations.FinalizeCompletesWithTheSelectedDigest := by
  intro s m k d
  obtain ⟨t, ht, hsel, hdigest, hdone, hframe⟩ := exec_hfFinalize_completes s
  have hd : hashOf k (stateBytes s.ctx.st.get) = d := hashOf_eq k m
  rw [hd] at hdigest
  refine ⟨t, ht, hsel, fun i => ?_, fun j hj => ?_, hdone, hframe⟩
  · rw [hdigest]
    exact byteOf_filled_digestWord d i
  · rw [hdigest, RegBank.isWritten_filled _ _ hj]

/-- Settles O47: in the selected pool the unit leased was idle and is so again, or it is new and stands at the end. -/
theorem finalizeReturnsTheUnitItLeases : Obligations.FinalizeReturnsTheUnitItLeases := by
  intro s t h
  refine ⟨fun k hk => by rw [exec_hfFinalize_poolOf h, if_neg hk.symm], ?_⟩
  rw [exec_hfFinalize_poolOf h, if_pos rfl]
  generalize s.poolOf t.ctx.sel = p
  obtain ⟨j, u, hu, hl, hp⟩ | ⟨hall, hp⟩ := finalizeIn_pool t.ctx.sel (Config.leasePick s.leases)
    (stateBytes s.ctx.st.get).toList p
  case inl =>
    rw [hp]
    refine ⟨fun i hi => ?_, fun _ => List.length_set, fun hall => ?_⟩
    · by_cases hij : j = i
      · subst hij
        rw [List.getElem?_set_self hi, hu, Option.map_some, Option.map_some, hl]
      · rw [List.getElem?_set_ne hij]
    · exact absurd (hall u (List.mem_of_getElem? hu)) (by simp [hl])
  case inr =>
    rw [hp]
    refine ⟨fun i hi => by rw [List.getElem?_append_left hi], fun ⟨u, hu, hl⟩ => ?_, fun _ => by simp⟩
    exact absurd (hall u hu) (by simp [hl])

/-- Settles O48: a lease marks an idle unit or, where there is none, adds one. -/
theorem leaseTakesNoLeasedUnit : Obligations.LeaseTakesNoLeasedUnit := by
  intro p pick
  obtain ⟨v, hv, hvl⟩ := p.lease_unit pick
  have hleased : ((p.lease pick).2[(p.lease pick).1]?).map HashUnit.leased = some true := by
    rw [hv, Option.map_some, hvl]
  obtain ⟨u, hu, hl, hp⟩ | ⟨hall, hp⟩ := p.lease_cases pick
  case inl =>
    refine ⟨.inl (by rw [hu, Option.map_some, hl]), hleased, fun i hi => ?_⟩
    rw [hp, List.getElem?_modify_ne _ _ hi.symm]
  case inr =>
    refine ⟨.inr ⟨by rw [hp], hall⟩, hleased, fun i hi => ?_⟩
    rw [hp] at hi ⊢
    obtain hlt | hgt := Nat.lt_or_gt_of_ne hi
    · exact List.getElem?_append_left hlt
    · rw [List.getElem?_eq_none (by simpa using hgt), List.getElem?_eq_none hgt.le]

end Sys2Proof.Machine
end

section
/-! PROOF. The record of an unwritten read stays (R263): what the moving context does keeps its record, and no other
context changes. -/

namespace Sys2Proof.Machine

/-- Where the moving context alone changes and keeps its record, every context keeps its record. -/
theorem State.uninit_of_frame {s u t : State} {k : Nat} {c : Context} {r : UninitRead} (hc : s.contexts[k]? = some c)
    (hr : c.uninit = some r) (hcs : u.contexts = s.contexts) (hl : t.lower = u.lower) (hu : t.upper = u.upper)
    (hkeep : u.ctx.uninit = some r → t.ctx.uninit = some r) :
    ∃ c', t.contexts[k]? = some c' ∧ c'.uninit = some r := by
  by_cases hk : k = u.ctxId
  case pos =>
    subst hk
    rw [← hcs, State.contexts_ctxId] at hc
    obtain rfl := Option.some.inj hc
    exact ⟨t.ctx, State.contexts_getElem?_of_lower hl, hkeep hr⟩
  case neg =>
    rw [State.contexts_of_frame hl hu, List.getElem?_set_ne (Ne.symm hk), hcs]
    exact ⟨c, hc, hr⟩

/-- Settles O59, by the cases of a step: a read adds no record to one that is set, and reset copies the record. -/
theorem noStepClearsTheFaultRecord : Obligations.NoStepClearsTheFaultRecord := by
  intro s t k c r h hc hr
  have same (hcs : t.contexts = s.contexts) : ∃ c', t.contexts[k]? = some c' ∧ c'.uninit = some r :=
    ⟨c, hcs ▸ hc, hr⟩
  obtain ⟨rest, -, rfl⟩ | ⟨u, hn, hrm⟩ | ⟨b, u, i, hn, -, he⟩ | ⟨b, u, e, hn, -, rfl⟩ |
    ⟨j, sp, i, b, rest, u, -, hf, -, -, rfl⟩ | ⟨j, sp, i, b, v, rest, u, -, hf, -, -, -, rfl⟩ |
    ⟨j, rest, -, hf, -⟩ | ⟨-, -, rfl⟩ := step_cases h
  · -- reset
    refine ⟨c.afterReset, ?_, hr⟩
    rw [resetBlock_contexts, List.getElem?_map]
    exact congrArg (Option.map Context.afterReset) hc
  · -- RM step
    obtain ⟨hl, hu, -⟩ := rmStep_frame hrm
    exact State.uninit_of_frame hc hr hn.frame.1 hl hu (rmStep_uninit_of_some hrm)
  · -- command
    obtain ⟨hl, hu, -⟩ := exec_frame he
    have hkeep := exec_uninit_of_some (u := r) he
    cases hn with
    | write _ _ hf _ => exact State.uninit_of_frame hc hr (State.focus_spec hf).1 hl hu hkeep
  · -- unassigned command code
    cases hn with
    | write _ _ hf _ => exact State.uninit_of_frame hc hr (State.focus_spec hf).1 rfl rfl id
  · -- host read
    exact State.uninit_of_frame hc hr (State.focus_spec hf).1 rfl rfl (Context.noteReads_uninit_of_some _ _ _)
  · -- host write
    exact State.uninit_of_frame hc hr (State.focus_spec hf).1 rfl rfl fun hs => by rw [Context.hostWrite_uninit, hs]
  · -- idle turn
    exact same (State.focus_spec hf).1
  · -- turn passed
    exact same s.passTurn_spec.1

end Sys2Proof.Machine
end

section
/-! PROOF. Reset, and the step in which nothing is to be done (R37, R300 to R302, R309). -/

namespace Sys2Proof.Machine

/-- Every context of the block after reset is in the reset state (R301). -/
theorem State.eq_reset_of_mem_reset_contexts {c : Context} (h : c ∈ State.reset.contexts) : c = Context.reset := by
  obtain h | rfl | h := State.mem_contexts.mp h
  · exact absurd h List.not_mem_nil
  · rfl
  · exact List.eq_of_mem_replicate h

/-- After reset no register that has a written bit counts as written (R43). -/
theorem Context.isWritten_reset {x : RegRef} (hx : x.space ∉ [Space.sel, Space.cmd, Space.status]) :
    Context.reset.isWritten x = false := by
  obtain ⟨sp, i⟩ := x
  cases sp
  case sel | cmd | status => simp at hx
  all_goals exact RegBank.isWritten_reset i

/-- A turn given to a context that is not `BUSY` chooses that context and does nothing else (R302). -/
theorem step_of_idle_turn {s : State} {k : Nat} {c : Context} {rest : List Input} (hi : s.inputs = .turn k :: rest)
    (hc : s.contexts[k]? = some c) (hb : c.busy = false) :
    ∃ u, s.focus k = some u ∧ step s = .next { u with inputs := rest } := by
  obtain ⟨u, hf⟩ := State.exists_focus (List.getElem?_eq_some_iff.mp hc).1
  obtain ⟨-, -, hk, -, hin, -⟩ := State.focus_spec hf
  obtain rfl : c = u.ctx := Option.some.inj (hc.symm.trans hk)
  exact ⟨u, hf, by simp [step_of_turn hi, hf, turnMove, hb, hin, hi]⟩

/-- Settles O57: with no input the turn passes, and an idle turn only chooses its context. -/
theorem idleStepOnlyPassesTheTurn : Obligations.IdleStepOnlyPassesTheTurn := by
  refine ⟨fun s hi hb => ?_, fun s k c rest hi hc hb => ?_⟩
  · have hstep : step s = .next s.passTurn := by simp [step, hi, restStep, hb]
    obtain ⟨hcs, hid, hp, hin, hh, hl⟩ := s.passTurn_spec
    exact ⟨_, hstep, hcs, hid, hp, hin.trans hi, hh, hl⟩
  · obtain ⟨u, hf, hstep⟩ := step_of_idle_turn hi hc hb
    obtain ⟨hcs, hid, -, hp, -, hh, hl⟩ := State.focus_spec hf
    exact ⟨_, hstep, hcs, hid, hp, rfl, hh, hl⟩

/-- Settles O9: each context is `Context.reset`, whose banks are all unwritten, and the pools are empty. -/
theorem resetLeavesTheStatedValues : Obligations.ResetLeavesTheStatedValues := by
  refine ⟨?_, fun c hc => ?_, poolOf_of_empty rfl⟩
  · simp [State.reset, Nat.add_comm]
  · obtain rfl := State.eq_reset_of_mem_reset_contexts hc
    exact ⟨by decide, rfl, rfl, rfl, fun _ => Context.isWritten_reset⟩

/-- Settles O10: the step is `resetBlock`, whose contexts and pools are known. -/
theorem resetInputResetsTheWholeBlock : Obligations.ResetInputResetsTheWholeBlock := by
  intro s rest hi
  have hstep : step s = .next (resetBlock { s with inputs := rest }) := by simp only [step, hi]
  exact ⟨_, hstep, rfl, resetBlock_contexts _, poolOf_of_empty rfl⟩

/-- Settles O49: a context after reset meets its invariant, and in an empty pool no unit is leased. -/
theorem resetMeetsTheInvariant : Obligations.ResetMeetsTheInvariant where
  ctxs c hc := by
    rw [State.eq_reset_of_mem_reset_contexts hc]
    exact Context.reset.afterReset_inv
  pools k u hu := by
    rw [poolOf_of_empty rfl] at hu
    exact absurd hu List.not_mem_nil

end Sys2Proof.Machine
end
